-- ==== Sys2Proof/Word.lean ====
section
/-! DEFINITION. Word.lean: the two word sizes of the hardware (00_scope.md R5), the thirteen addressing modes with the
operand forms they give an instruction (30_encoding.md R82, R83), and the events of the PPU port (20_memory.md R56). -/

namespace Sys2Proof

/-- A byte: the width of A, X, Y, SP, P and of every bus transfer (R5). -/
abbrev Byte := BitVec 8

/-- A 16-bit address: the width of PC and of the bus address (R5). -/
abbrev Addr := BitVec 16

/-- The thirteen addressing modes (30_encoding.md R82). -/
inductive Mode where
  | imp | acc | imm | zp | zpx | zpy | rel | abs | abx | aby | ind | izx | izy
  deriving DecidableEq, Repr

/-- An operand in memory: the modes whose resolution yields the address of a datum (40_fetch_decode_addressing.md R106 to
R108, R110 to R112, R114, R115), each with its operand bytes as R83 assembles them. -/
inductive MemOperand where
  | zp (d : Byte)
  | zpx (d : Byte)
  | zpy (d : Byte)
  | abs (a : Addr)
  | abx (a : Addr)
  | aby (a : Addr)
  | izx (d : Byte)
  | izy (d : Byte)
  deriving DecidableEq, Repr

/-- An operand that is only read: the immediate byte itself (R105) or a byte in memory. -/
inductive ReadOperand where
  | imm (v : Byte)
  | mem (m : MemOperand)
  deriving DecidableEq, Repr

/-- The operand of a shift or rotate: the accumulator (R104) or a byte in memory. -/
inductive ShiftOperand where
  | acc
  | mem (m : MemOperand)
  deriving DecidableEq, Repr

/-- One access at the PPU port, by register number 0 to 7 (20_memory.md R55, R56): a read, or a write of a byte. -/
inductive PpuEvent where
  | read (r : BitVec 3)
  | write (r : BitVec 3) (v : Byte)
  deriving DecidableEq, Repr

end Sys2Proof
end

