-- ==== Sys2Proof/Config.lean ====
section
/-! DEFINITION. Config.lean: what the spec leaves to the environment (00_scope.md R6): the answers of the PPU port, a free
value with no body, and what a byte of memory that nothing has placed reads as. -/

namespace Sys2Proof

/-- `PPU_READ` (20_memory.md R56, 92_eei_decisions.md D5): what a read of PPU register `r` returns, given every access made
at the port before it, oldest first. It has no body, so nothing can be proved of its value: the fixed-value stub and every
collaborator that answers by read index and register are instances (log 4). -/
opaque Config.ppuRead : List PpuEvent → BitVec 3 → Byte

/-- `MEM_INIT` (20_memory.md R68, 92_eei_decisions.md D4): what a backing byte that memory does not list reads as.
DESIGN CHOICE, unsafe (log 1): 0x00, the instance the spec's own test vectors take. It is only the byte that the memory list
leaves out: the open parameter itself is an argument of `create` (Machine/Boot.lean). -/
def Config.memInit (_key : Nat) : Byte := 0x00

end Sys2Proof
end

