-- ==== Sys2Proof/Syntax.lean ====
section
/-! DEFINITION. Syntax.lean: the instructions (30_encoding.md R85, R86, R88): one constructor per operation of
spec/opcode_table.json, its operand being one of the modes the table has for it; JMP has two, one for each of its rules;
the 105 undefined opcodes are one operation, UND, that carries its opcode byte. -/

namespace Sys2Proof

/-- An instruction with its operand bytes. Which modes an operation may take is `Instr.wf`. -/
inductive Instr where
  -- 41_arithmetic_compare.md
  | adc (o : ReadOperand)
  | sbc (o : ReadOperand)
  | cmp (o : ReadOperand)
  | cpx (o : ReadOperand)
  | cpy (o : ReadOperand)
  -- 42_logic_incdec.md
  | and (o : ReadOperand)
  | ora (o : ReadOperand)
  | eor (o : ReadOperand)
  | bit (m : MemOperand)
  | inc (m : MemOperand)
  | dec (m : MemOperand)
  | inx
  | iny
  | dex
  | dey
  -- 43_shift_rotate.md
  | asl (o : ShiftOperand)
  | lsr (o : ShiftOperand)
  | rol (o : ShiftOperand)
  | ror (o : ShiftOperand)
  -- 44_branch_jump.md
  | bcc (d : Byte)
  | bcs (d : Byte)
  | beq (d : Byte)
  | bmi (d : Byte)
  | bne (d : Byte)
  | bpl (d : Byte)
  | bvc (d : Byte)
  | bvs (d : Byte)
  | jmp (a : Addr)
  | jmpInd (p : Addr)
  | jsr (a : Addr)
  | rts
  -- 45_stack_flags_system.md
  | pha
  | php
  | pla
  | plp
  | brk
  | rti
  | clc
  | sec
  | cli
  | sei
  | cld
  | sed
  | clv
  | nop
  | und (op : Byte)
  -- 46_load_store_transfer.md
  | lda (o : ReadOperand)
  | ldx (o : ReadOperand)
  | ldy (o : ReadOperand)
  | sta (m : MemOperand)
  | stx (m : MemOperand)
  | sty (m : MemOperand)
  | tax
  | tay
  | txa
  | tya
  | tsx
  | txs
  deriving DecidableEq, Repr

/-- The addressing mode of an operand in memory. -/
def MemOperand.mode : MemOperand → Mode
  | .zp _ => .zp
  | .zpx _ => .zpx
  | .zpy _ => .zpy
  | .abs _ => .abs
  | .abx _ => .abx
  | .aby _ => .aby
  | .izx _ => .izx
  | .izy _ => .izy

/-- The addressing mode of an operand that is only read. -/
def ReadOperand.mode : ReadOperand → Mode
  | .imm _ => .imm
  | .mem m => m.mode

/-- The addressing mode of a shift's operand. -/
def ShiftOperand.mode : ShiftOperand → Mode
  | .acc => .acc
  | .mem m => m.mode

/-- The addressing mode of an instruction (30_encoding.md R82; 40_fetch_decode_addressing.md R103 to R115). -/
def Instr.mode : Instr → Mode
  | .adc o | .sbc o | .cmp o | .cpx o | .cpy o | .and o | .ora o | .eor o | .lda o | .ldx o | .ldy o => o.mode
  | .bit m | .inc m | .dec m | .sta m | .stx m | .sty m => m.mode
  | .asl o | .lsr o | .rol o | .ror o => o.mode
  | .bcc _ | .bcs _ | .beq _ | .bmi _ | .bne _ | .bpl _ | .bvc _ | .bvs _ => .rel
  | .jmp _ | .jsr _ => .abs
  | .jmpInd _ => .ind
  | .inx | .iny | .dex | .dey | .rts | .pha | .php | .pla | .plp | .brk | .rti | .clc | .sec | .cli | .sei | .cld | .sed
  | .clv | .nop | .und _ | .tax | .tay | .txa | .tya | .tsx | .txs => .imp

end Sys2Proof
end

