-- ==== Sys2Proof/WellFormed.lean ====
section
/-! DEFINITION. WellFormed.lean: which terms of `Instr` are instructions of the hardware: the modes that the opcode map
gives each operation (30_encoding.md R85, and the Operands line of each operation's rule), and the 105 bytes that are
undefined opcodes (R88). -/

namespace Sys2Proof

/-- The 105 undefined opcodes, as 30_encoding.md R88 lists them. -/
def undefinedOpcodes : List Byte :=
  [0x02, 0x03, 0x04, 0x07, 0x0B, 0x0C, 0x0F, 0x12, 0x13, 0x14, 0x17, 0x1A, 0x1B, 0x1C, 0x1F] ++
  [0x22, 0x23, 0x27, 0x2B, 0x2F, 0x32, 0x33, 0x34, 0x37, 0x3A, 0x3B, 0x3C, 0x3F] ++
  [0x42, 0x43, 0x44, 0x47, 0x4B, 0x4F, 0x52, 0x53, 0x54, 0x57, 0x5A, 0x5B, 0x5C, 0x5F] ++
  [0x62, 0x63, 0x64, 0x67, 0x6B, 0x6F, 0x72, 0x73, 0x74, 0x77, 0x7A, 0x7B, 0x7C, 0x7F] ++
  [0x80, 0x82, 0x83, 0x87, 0x89, 0x8B, 0x8F, 0x92, 0x93, 0x97, 0x9B, 0x9C, 0x9E, 0x9F] ++
  [0xA3, 0xA7, 0xAB, 0xAF, 0xB2, 0xB3, 0xB7, 0xBB, 0xBF] ++
  [0xC2, 0xC3, 0xC7, 0xCB, 0xCF, 0xD2, 0xD3, 0xD4, 0xD7, 0xDA, 0xDB, 0xDC, 0xDF] ++
  [0xE2, 0xE3, 0xE7, 0xEB, 0xEF, 0xF2, 0xF3, 0xF4, 0xF7, 0xFA, 0xFB, 0xFC, 0xFF]

/-- The modes of ADC, SBC, CMP, AND, ORA, EOR, LDA (R130 to R132, R140 to R142, R210). -/
def accumulatorModes : List Mode := [.imm, .zp, .zpx, .abs, .abx, .aby, .izx, .izy]

/-- The modes of STA: no immediate form (R213). -/
def staModes : List Mode := [.zp, .zpx, .abs, .abx, .aby, .izx, .izy]

/-- The modes of ASL, LSR, ROL, ROR (R156 to R159). -/
def shiftModes : List Mode := [.acc, .zp, .zpx, .abs, .abx]

/-- The modes of INC and DEC: no accumulator form (R144, R145). -/
def incDecModes : List Mode := [.zp, .zpx, .abs, .abx]

/-- The modes of BIT: no immediate form (R143). -/
def bitModes : List Mode := [.zp, .abs]

/-- The modes of CPX and CPY (R133, R134). -/
def compareIndexModes : List Mode := [.imm, .zp, .abs]

/-- The modes of LDX: indexing is by Y (R211). -/
def ldxModes : List Mode := [.imm, .zp, .zpy, .abs, .aby]

/-- The modes of LDY: indexing is by X (R212). -/
def ldyModes : List Mode := [.imm, .zp, .zpx, .abs, .abx]

/-- The modes of STX (R214). -/
def stxModes : List Mode := [.zp, .zpy, .abs]

/-- The modes of STY (R215). -/
def styModes : List Mode := [.zp, .zpx, .abs]

/-- The instruction is one of the hardware's: its mode is one the opcode map has for its operation (R85), or its byte is
an undefined opcode (R88). -/
def Instr.wf : Instr → Bool
  | .adc o | .sbc o | .cmp o | .and o | .ora o | .eor o | .lda o => accumulatorModes.contains o.mode
  | .cpx o | .cpy o => compareIndexModes.contains o.mode
  | .bit m => bitModes.contains m.mode
  | .inc m | .dec m => incDecModes.contains m.mode
  | .asl o | .lsr o | .rol o | .ror o => shiftModes.contains o.mode
  | .ldx o => ldxModes.contains o.mode
  | .ldy o => ldyModes.contains o.mode
  | .sta m => staModes.contains m.mode
  | .stx m => stxModes.contains m.mode
  | .sty m => styModes.contains m.mode
  | .und op => undefinedOpcodes.contains op
  | .inx | .iny | .dex | .dey | .bcc _ | .bcs _ | .beq _ | .bmi _ | .bne _ | .bpl _ | .bvc _ | .bvs _ | .jmp _ | .jmpInd _
  | .jsr _ | .rts | .pha | .php | .pla | .plp | .brk | .rti | .clc | .sec | .cli | .sei | .cld | .sed | .clv | .nop | .tax
  | .tay | .txa | .tya | .tsx | .txs => true

end Sys2Proof
end

