-- ==== Sys2Proof/Decode.lean ====
section
/-! DEFINITION. Decode.lean: the instruction decoder, total on any bytes (30_encoding.md R80 to R84, R88, R90), written from
the opcode map by opcode byte; after it the encoder, written from the opcode map by operation and mode (R85), which also
gives the base cycle count of every legal opcode. -/

namespace Sys2Proof

/-- The 16-bit concatenation `h:l` with `h` the upper byte (00_scope.md R7); operand bytes are "assembled little-endian"
(30_encoding.md R83). -/
def word (h l : Byte) : Addr := h ++ l

/-- The upper byte of an address, which names its page (R7). -/
def hi8 (a : Addr) : Byte := a.extractLsb' 8 8

/-- The lower byte of an address (R7). -/
def lo8 (a : Addr) : Byte := a.extractLsb' 0 8

/-- `zext_16` (00_scope.md R8). -/
def zext (b : Byte) : Addr := b.setWidth 16

/-- `sext_16` (00_scope.md R8). -/
def sext (b : Byte) : Addr := b.signExtend 16

/-- The number of operand bytes a mode consumes (30_encoding.md R82). -/
def Mode.operandBytes : Mode → Nat
  | .imp | .acc => 0
  | .imm | .zp | .zpx | .zpy | .rel | .izx | .izy => 1
  | .abs | .abx | .aby | .ind => 2

/-- The instruction of an opcode byte `op` whose first and second operand bytes are `b1` and `b2` (R83, R84): the 16-by-16
map of R85 by opcode byte; every byte the map leaves empty is an undefined opcode, operation UND (R88). A mode that has
fewer operand bytes does not read the rest. -/
def decodeOpcode (op b1 b2 : Byte) : Instr :=
  match op with
  | 0x00 => .brk
  | 0x01 => .ora (.mem (.izx b1))
  | 0x05 => .ora (.mem (.zp b1))
  | 0x06 => .asl (.mem (.zp b1))
  | 0x08 => .php
  | 0x09 => .ora (.imm b1)
  | 0x0A => .asl .acc
  | 0x0D => .ora (.mem (.abs (word b2 b1)))
  | 0x0E => .asl (.mem (.abs (word b2 b1)))
  | 0x10 => .bpl b1
  | 0x11 => .ora (.mem (.izy b1))
  | 0x15 => .ora (.mem (.zpx b1))
  | 0x16 => .asl (.mem (.zpx b1))
  | 0x18 => .clc
  | 0x19 => .ora (.mem (.aby (word b2 b1)))
  | 0x1D => .ora (.mem (.abx (word b2 b1)))
  | 0x1E => .asl (.mem (.abx (word b2 b1)))
  | 0x20 => .jsr (word b2 b1)
  | 0x21 => .and (.mem (.izx b1))
  | 0x24 => .bit (.zp b1)
  | 0x25 => .and (.mem (.zp b1))
  | 0x26 => .rol (.mem (.zp b1))
  | 0x28 => .plp
  | 0x29 => .and (.imm b1)
  | 0x2A => .rol .acc
  | 0x2C => .bit (.abs (word b2 b1))
  | 0x2D => .and (.mem (.abs (word b2 b1)))
  | 0x2E => .rol (.mem (.abs (word b2 b1)))
  | 0x30 => .bmi b1
  | 0x31 => .and (.mem (.izy b1))
  | 0x35 => .and (.mem (.zpx b1))
  | 0x36 => .rol (.mem (.zpx b1))
  | 0x38 => .sec
  | 0x39 => .and (.mem (.aby (word b2 b1)))
  | 0x3D => .and (.mem (.abx (word b2 b1)))
  | 0x3E => .rol (.mem (.abx (word b2 b1)))
  | 0x40 => .rti
  | 0x41 => .eor (.mem (.izx b1))
  | 0x45 => .eor (.mem (.zp b1))
  | 0x46 => .lsr (.mem (.zp b1))
  | 0x48 => .pha
  | 0x49 => .eor (.imm b1)
  | 0x4A => .lsr .acc
  | 0x4C => .jmp (word b2 b1)
  | 0x4D => .eor (.mem (.abs (word b2 b1)))
  | 0x4E => .lsr (.mem (.abs (word b2 b1)))
  | 0x50 => .bvc b1
  | 0x51 => .eor (.mem (.izy b1))
  | 0x55 => .eor (.mem (.zpx b1))
  | 0x56 => .lsr (.mem (.zpx b1))
  | 0x58 => .cli
  | 0x59 => .eor (.mem (.aby (word b2 b1)))
  | 0x5D => .eor (.mem (.abx (word b2 b1)))
  | 0x5E => .lsr (.mem (.abx (word b2 b1)))
  | 0x60 => .rts
  | 0x61 => .adc (.mem (.izx b1))
  | 0x65 => .adc (.mem (.zp b1))
  | 0x66 => .ror (.mem (.zp b1))
  | 0x68 => .pla
  | 0x69 => .adc (.imm b1)
  | 0x6A => .ror .acc
  | 0x6C => .jmpInd (word b2 b1)
  | 0x6D => .adc (.mem (.abs (word b2 b1)))
  | 0x6E => .ror (.mem (.abs (word b2 b1)))
  | 0x70 => .bvs b1
  | 0x71 => .adc (.mem (.izy b1))
  | 0x75 => .adc (.mem (.zpx b1))
  | 0x76 => .ror (.mem (.zpx b1))
  | 0x78 => .sei
  | 0x79 => .adc (.mem (.aby (word b2 b1)))
  | 0x7D => .adc (.mem (.abx (word b2 b1)))
  | 0x7E => .ror (.mem (.abx (word b2 b1)))
  | 0x81 => .sta (.izx b1)
  | 0x84 => .sty (.zp b1)
  | 0x85 => .sta (.zp b1)
  | 0x86 => .stx (.zp b1)
  | 0x88 => .dey
  | 0x8A => .txa
  | 0x8C => .sty (.abs (word b2 b1))
  | 0x8D => .sta (.abs (word b2 b1))
  | 0x8E => .stx (.abs (word b2 b1))
  | 0x90 => .bcc b1
  | 0x91 => .sta (.izy b1)
  | 0x94 => .sty (.zpx b1)
  | 0x95 => .sta (.zpx b1)
  | 0x96 => .stx (.zpy b1)
  | 0x98 => .tya
  | 0x99 => .sta (.aby (word b2 b1))
  | 0x9A => .txs
  | 0x9D => .sta (.abx (word b2 b1))
  | 0xA0 => .ldy (.imm b1)
  | 0xA1 => .lda (.mem (.izx b1))
  | 0xA2 => .ldx (.imm b1)
  | 0xA4 => .ldy (.mem (.zp b1))
  | 0xA5 => .lda (.mem (.zp b1))
  | 0xA6 => .ldx (.mem (.zp b1))
  | 0xA8 => .tay
  | 0xA9 => .lda (.imm b1)
  | 0xAA => .tax
  | 0xAC => .ldy (.mem (.abs (word b2 b1)))
  | 0xAD => .lda (.mem (.abs (word b2 b1)))
  | 0xAE => .ldx (.mem (.abs (word b2 b1)))
  | 0xB0 => .bcs b1
  | 0xB1 => .lda (.mem (.izy b1))
  | 0xB4 => .ldy (.mem (.zpx b1))
  | 0xB5 => .lda (.mem (.zpx b1))
  | 0xB6 => .ldx (.mem (.zpy b1))
  | 0xB8 => .clv
  | 0xB9 => .lda (.mem (.aby (word b2 b1)))
  | 0xBA => .tsx
  | 0xBC => .ldy (.mem (.abx (word b2 b1)))
  | 0xBD => .lda (.mem (.abx (word b2 b1)))
  | 0xBE => .ldx (.mem (.aby (word b2 b1)))
  | 0xC0 => .cpy (.imm b1)
  | 0xC1 => .cmp (.mem (.izx b1))
  | 0xC4 => .cpy (.mem (.zp b1))
  | 0xC5 => .cmp (.mem (.zp b1))
  | 0xC6 => .dec (.zp b1)
  | 0xC8 => .iny
  | 0xC9 => .cmp (.imm b1)
  | 0xCA => .dex
  | 0xCC => .cpy (.mem (.abs (word b2 b1)))
  | 0xCD => .cmp (.mem (.abs (word b2 b1)))
  | 0xCE => .dec (.abs (word b2 b1))
  | 0xD0 => .bne b1
  | 0xD1 => .cmp (.mem (.izy b1))
  | 0xD5 => .cmp (.mem (.zpx b1))
  | 0xD6 => .dec (.zpx b1)
  | 0xD8 => .cld
  | 0xD9 => .cmp (.mem (.aby (word b2 b1)))
  | 0xDD => .cmp (.mem (.abx (word b2 b1)))
  | 0xDE => .dec (.abx (word b2 b1))
  | 0xE0 => .cpx (.imm b1)
  | 0xE1 => .sbc (.mem (.izx b1))
  | 0xE4 => .cpx (.mem (.zp b1))
  | 0xE5 => .sbc (.mem (.zp b1))
  | 0xE6 => .inc (.zp b1)
  | 0xE8 => .inx
  | 0xE9 => .sbc (.imm b1)
  | 0xEA => .nop
  | 0xEC => .cpx (.mem (.abs (word b2 b1)))
  | 0xED => .sbc (.mem (.abs (word b2 b1)))
  | 0xEE => .inc (.abs (word b2 b1))
  | 0xF0 => .beq b1
  | 0xF1 => .sbc (.mem (.izy b1))
  | 0xF5 => .sbc (.mem (.zpx b1))
  | 0xF6 => .inc (.zpx b1)
  | 0xF8 => .sed
  | 0xF9 => .sbc (.mem (.aby (word b2 b1)))
  | 0xFD => .sbc (.mem (.abx (word b2 b1)))
  | 0xFE => .inc (.abx (word b2 b1))
  | op => .und op

/-- The number of operand bytes that follow an opcode: its mode alone fixes it (R82, R90). -/
def operandCount (op : Byte) : Nat := (decodeOpcode op 0 0).mode.operandBytes

/-- The one way a byte list is no instruction: it ends before the instruction does. -/
inductive DecodeError where
  /-- There is no opcode byte. -/
  | noBytes
  /-- The opcode's mode has more operand bytes than there are. -/
  | truncated (op : Byte)
  deriving DecidableEq, Repr

/-- The first instruction of a byte list and the bytes after it (R80, R90). -/
def decode : List Byte → Except DecodeError (Instr × List Byte)
  | [] => .error .noBytes
  | op :: rest =>
    match operandCount op, rest with
    | 0, rest => .ok (decodeOpcode op 0 0, rest)
    | 1, b1 :: rest => .ok (decodeOpcode op b1 0, rest)
    | 2, b1 :: b2 :: rest => .ok (decodeOpcode op b1 b2, rest)
    | _, _ => .error (.truncated op)

/-- The three bytes of an instruction whose bits are `w`, `nbits` of them, the rest 0: bit 0 is the least significant bit
of the first byte (spec/opcode_table.json). -/
def tableBytes (nbits w : Nat) : List Byte :=
  let v := w % 2 ^ nbits
  [BitVec.ofNat 8 v, BitVec.ofNat 8 (v / 256), BitVec.ofNat 8 (v / 65536)]

/-- The instruction the decoder reads from the bits `w` of an instruction. -/
def decodeTableWord (nbits w : Nat) : Option Instr :=
  match decode (tableBytes nbits w) with
  | .ok (i, _) => some i
  | .error _ => none

/-- A cell of one row of R85: the opcode and base cycles a mode has there. -/
def cellAt (m : Mode) : List (Mode × Byte × Nat) → Option (Byte × Nat)
  | [] => none
  | (n, c) :: rest => if m = n then some c else cellAt m rest

/-- The opcode and base cycle count of an instruction: the table of R85 by operation and mode, and R88 for the undefined
opcodes; none for a term that is no instruction of the hardware. -/
def Instr.cell : Instr → Option (Byte × Nat)
  | .adc o => cellAt o.mode [(.imm, 0x69, 2), (.zp, 0x65, 3), (.zpx, 0x75, 4), (.abs, 0x6D, 4), (.abx, 0x7D, 4),
      (.aby, 0x79, 4), (.izx, 0x61, 6), (.izy, 0x71, 5)]
  | .and o => cellAt o.mode [(.imm, 0x29, 2), (.zp, 0x25, 3), (.zpx, 0x35, 4), (.abs, 0x2D, 4), (.abx, 0x3D, 4),
      (.aby, 0x39, 4), (.izx, 0x21, 6), (.izy, 0x31, 5)]
  | .asl o => cellAt o.mode [(.acc, 0x0A, 2), (.zp, 0x06, 5), (.zpx, 0x16, 6), (.abs, 0x0E, 6), (.abx, 0x1E, 7)]
  | .bcc _ => some (0x90, 2)
  | .bcs _ => some (0xB0, 2)
  | .beq _ => some (0xF0, 2)
  | .bit m => cellAt m.mode [(.zp, 0x24, 3), (.abs, 0x2C, 4)]
  | .bmi _ => some (0x30, 2)
  | .bne _ => some (0xD0, 2)
  | .bpl _ => some (0x10, 2)
  | .brk => some (0x00, 7)
  | .bvc _ => some (0x50, 2)
  | .bvs _ => some (0x70, 2)
  | .clc => some (0x18, 2)
  | .cld => some (0xD8, 2)
  | .cli => some (0x58, 2)
  | .clv => some (0xB8, 2)
  | .cmp o => cellAt o.mode [(.imm, 0xC9, 2), (.zp, 0xC5, 3), (.zpx, 0xD5, 4), (.abs, 0xCD, 4), (.abx, 0xDD, 4),
      (.aby, 0xD9, 4), (.izx, 0xC1, 6), (.izy, 0xD1, 5)]
  | .cpx o => cellAt o.mode [(.imm, 0xE0, 2), (.zp, 0xE4, 3), (.abs, 0xEC, 4)]
  | .cpy o => cellAt o.mode [(.imm, 0xC0, 2), (.zp, 0xC4, 3), (.abs, 0xCC, 4)]
  | .dec m => cellAt m.mode [(.zp, 0xC6, 5), (.zpx, 0xD6, 6), (.abs, 0xCE, 6), (.abx, 0xDE, 7)]
  | .dex => some (0xCA, 2)
  | .dey => some (0x88, 2)
  | .eor o => cellAt o.mode [(.imm, 0x49, 2), (.zp, 0x45, 3), (.zpx, 0x55, 4), (.abs, 0x4D, 4), (.abx, 0x5D, 4),
      (.aby, 0x59, 4), (.izx, 0x41, 6), (.izy, 0x51, 5)]
  | .inc m => cellAt m.mode [(.zp, 0xE6, 5), (.zpx, 0xF6, 6), (.abs, 0xEE, 6), (.abx, 0xFE, 7)]
  | .inx => some (0xE8, 2)
  | .iny => some (0xC8, 2)
  | .jmp _ => some (0x4C, 3)
  | .jmpInd _ => some (0x6C, 5)
  | .jsr _ => some (0x20, 6)
  | .lda o => cellAt o.mode [(.imm, 0xA9, 2), (.zp, 0xA5, 3), (.zpx, 0xB5, 4), (.abs, 0xAD, 4), (.abx, 0xBD, 4),
      (.aby, 0xB9, 4), (.izx, 0xA1, 6), (.izy, 0xB1, 5)]
  | .ldx o => cellAt o.mode [(.imm, 0xA2, 2), (.zp, 0xA6, 3), (.zpy, 0xB6, 4), (.abs, 0xAE, 4), (.aby, 0xBE, 4)]
  | .ldy o => cellAt o.mode [(.imm, 0xA0, 2), (.zp, 0xA4, 3), (.zpx, 0xB4, 4), (.abs, 0xAC, 4), (.abx, 0xBC, 4)]
  | .lsr o => cellAt o.mode [(.acc, 0x4A, 2), (.zp, 0x46, 5), (.zpx, 0x56, 6), (.abs, 0x4E, 6), (.abx, 0x5E, 7)]
  | .nop => some (0xEA, 2)
  | .ora o => cellAt o.mode [(.imm, 0x09, 2), (.zp, 0x05, 3), (.zpx, 0x15, 4), (.abs, 0x0D, 4), (.abx, 0x1D, 4),
      (.aby, 0x19, 4), (.izx, 0x01, 6), (.izy, 0x11, 5)]
  | .pha => some (0x48, 3)
  | .php => some (0x08, 3)
  | .pla => some (0x68, 4)
  | .plp => some (0x28, 4)
  | .rol o => cellAt o.mode [(.acc, 0x2A, 2), (.zp, 0x26, 5), (.zpx, 0x36, 6), (.abs, 0x2E, 6), (.abx, 0x3E, 7)]
  | .ror o => cellAt o.mode [(.acc, 0x6A, 2), (.zp, 0x66, 5), (.zpx, 0x76, 6), (.abs, 0x6E, 6), (.abx, 0x7E, 7)]
  | .rti => some (0x40, 6)
  | .rts => some (0x60, 6)
  | .sbc o => cellAt o.mode [(.imm, 0xE9, 2), (.zp, 0xE5, 3), (.zpx, 0xF5, 4), (.abs, 0xED, 4), (.abx, 0xFD, 4),
      (.aby, 0xF9, 4), (.izx, 0xE1, 6), (.izy, 0xF1, 5)]
  | .sec => some (0x38, 2)
  | .sed => some (0xF8, 2)
  | .sei => some (0x78, 2)
  | .sta m => cellAt m.mode [(.zp, 0x85, 3), (.zpx, 0x95, 4), (.abs, 0x8D, 4), (.abx, 0x9D, 5), (.aby, 0x99, 5),
      (.izx, 0x81, 6), (.izy, 0x91, 6)]
  | .stx m => cellAt m.mode [(.zp, 0x86, 3), (.zpy, 0x96, 4), (.abs, 0x8E, 4)]
  | .sty m => cellAt m.mode [(.zp, 0x84, 3), (.zpx, 0x94, 4), (.abs, 0x8C, 4)]
  | .tax => some (0xAA, 2)
  | .tay => some (0xA8, 2)
  | .tsx => some (0xBA, 2)
  | .txa => some (0x8A, 2)
  | .txs => some (0x9A, 2)
  | .tya => some (0x98, 2)
  | .und op => if undefinedOpcodes.contains op then some (op, 2) else none

/-- The base cycle count (R84, R87); 2 for a term that is no instruction, which nothing decodes to. -/
def Instr.baseCycles (i : Instr) : Nat :=
  match i.cell with
  | some (_, n) => n
  | none => 2

/-- The operand bytes of an operand in memory, in address order (R80, R83). -/
def MemOperand.bytes : MemOperand → List Byte
  | .zp d | .zpx d | .zpy d | .izx d | .izy d => [d]
  | .abs a | .abx a | .aby a => [lo8 a, hi8 a]

/-- The operand bytes of an operand that is only read. -/
def ReadOperand.bytes : ReadOperand → List Byte
  | .imm v => [v]
  | .mem m => m.bytes

/-- The operand bytes of a shift. -/
def ShiftOperand.bytes : ShiftOperand → List Byte
  | .acc => []
  | .mem m => m.bytes

/-- The operand bytes of an instruction, in address order (R80, R83). -/
def Instr.operandBytes : Instr → List Byte
  | .adc o | .sbc o | .cmp o | .cpx o | .cpy o | .and o | .ora o | .eor o | .lda o | .ldx o | .ldy o => o.bytes
  | .bit m | .inc m | .dec m | .sta m | .stx m | .sty m => m.bytes
  | .asl o | .lsr o | .rol o | .ror o => o.bytes
  | .bcc d | .bcs d | .beq d | .bmi d | .bne d | .bpl d | .bvc d | .bvs d => [d]
  | .jmp a | .jmpInd a | .jsr a => [lo8 a, hi8 a]
  | .inx | .iny | .dex | .dey | .rts | .pha | .php | .pla | .plp | .brk | .rti | .clc | .sec | .cli | .sei | .cld | .sed
  | .clv | .nop | .und _ | .tax | .tay | .txa | .tya | .tsx | .txs => []

/-- The bytes of a well-formed instruction (R80): its opcode, then its operand bytes; no bytes for any other term. -/
def encode (i : Instr) : List Byte :=
  match i.cell with
  | some (op, _) => op :: i.operandBytes
  | none => []

/-- The length of an instruction in bytes (R82, R90). -/
def Instr.length (i : Instr) : Nat := 1 + i.mode.operandBytes

end Sys2Proof
end

