-- ==== Sys2Proof/Machine/State.lean ====
section
/-! DEFINITION. Machine/State.lean: the state of the machine (10_state.md, 20_memory.md R52), the ways a step can stop, and
the state after reset (10_state.md R43, 70_reset_and_hazards.md R250). -/

namespace Sys2Proof.Machine

/-- The seven flags of the status register P (10_state.md R25, R27 to R33). Bit 5 of P is the constant 1 and is no state
(R26): `Flags.toByte` supplies it. -/
structure Flags where
  /-- Sign, bit 7. -/
  n : Bool
  /-- Overflow, bit 6. -/
  v : Bool
  /-- Break, bit 4: a stored bit (R31). -/
  b : Bool
  /-- Decimal, bit 3: stored, changes no arithmetic (R30). -/
  d : Bool
  /-- IRQ-disable, bit 2: stored, gates nothing (R29). -/
  i : Bool
  /-- Zero, bit 1. -/
  z : Bool
  /-- Carry, bit 0. -/
  c : Bool
  deriving DecidableEq, Repr

/-- The phase of the cycle state machine with the instruction latch (10_state.md R38, R39; 70_reset_and_hazards.md R262).
The latch is held as the opcode byte, of which the latched operation, mode and base count are a function (log 8). -/
inductive Phase where
  /-- No pending instruction: an instruction boundary. -/
  | fetch
  /-- The latched opcode, with `n` base cycles left, `n` at least 1. -/
  | execute (opcode : Byte) (n : Nat)
  /-- `m` penalty cycles left, `m` at least 1. -/
  | delay (m : Nat)
  deriving DecidableEq, Repr

/-- The backing bytes of RAM, IO, IOTEST and CART (20_memory.md R52): key and byte, in the canonical form of `Memory.wf`. -/
abbrev Memory := List Host.Cell

/-- The state of the machine: the six registers (10_state.md R20), the hidden phase and latch (R38, R39), the backing bytes
(20_memory.md R52), the accesses made so far at the PPU port, oldest first, the model's own record (log 5), and whether an
image has been loaded, without which no tick is allowed (70_reset_and_hazards.md R252, R253; log 3). -/
structure State where
  a : Byte
  x : Byte
  y : Byte
  sp : Byte
  pc : Addr
  p : Flags
  phase : Phase
  mem : Memory
  ppu : List PpuEvent
  loaded : Bool
  deriving DecidableEq, Repr

/-- Why the machine faults: never. The hardware raises no fault (60_exceptions.md R230; 20_memory.md R53, R74), so nothing
raises one here. Safe: no behaviour of the hardware is left out by it (log 30). -/
inductive Fault where
  deriving DecidableEq, Repr

/-- Why the model gives no next state. -/
inductive Refusal where
  /-- Raised by exec for an instruction that has no meaning yet, by its mnemonic. Safe. No arm raises it now. -/
  | notModelled (mnemonic : String)
  /-- Raised by the host action `load` for an image of no byte or of more than 49120 (70_reset_and_hazards.md R255). Safe.
  No instruction raises it. -/
  | imageSize (n : Nat)
  /-- Raised by a step or a tick of a machine into which no image has been loaded (70_reset_and_hazards.md R252, R253;
  93_implementation_defined.md U6). Safe. No instruction raises it. -/
  | notLoaded
  deriving DecidableEq, Repr

/-- What a step, a tick or a host action answers. -/
abbrev Result := Host.Outcome State Fault Refusal

/-- The machine right after reset with nothing loaded (10_state.md R43; 70_reset_and_hazards.md R250): A, X, Y 0x00, SP
0xFD, PC the little-endian word at 0xFFFC, phase Fetch, latch empty. It is no launch state: until a load it does not step
(R252). The flags are `P_RESET`, taken as all clear (DESIGN CHOICE, log 2); the vector bytes are unlisted and read as
`Config.memInit` (DESIGN CHOICE, logs 1 and 3). It is one instance of `create`, which takes all of these as arguments. -/
def State.reset : State :=
  { a := 0x00
    x := 0x00
    y := 0x00
    sp := 0xFD
    pc := word (Config.memInit 0xFFFD) (Config.memInit 0xFFFC)
    p := { n := false, v := false, b := false, d := false, i := false, z := false, c := false }
    phase := .fetch
    mem := []
    ppu := []
    loaded := false }

end Sys2Proof.Machine
end

