-- ==== Sys2Proof/Machine/Flags.lean ====
section
/-! DEFINITION. Machine/Flags.lean: the status byte (10_state.md R34) and every flag computation of the spec, as functions
of bytes and flags: SetNZ (00_scope.md R10), addition and subtraction (41_arithmetic_compare.md R130, R131), compare (R132),
bit test (42_logic_incdec.md R143), and the four shift functions (43_shift_rotate.md R155 to R159). -/

namespace Sys2Proof.Machine

/-- `ToByte(P)` (10_state.md R34): bit 5 is always 1 (R26). -/
def Flags.toByte (p : Flags) : Byte :=
  BitVec.ofNat 8 (p.n.toNat * 128 + p.v.toNat * 64 + 32 + p.b.toNat * 16 + p.d.toNat * 8 + p.i.toNat * 4 + p.z.toNat * 2
    + p.c.toNat)

/-- `FromByte(v)` (10_state.md R34): bit 5 of `v` is ignored. -/
def Flags.ofByte (v : Byte) : Flags :=
  { n := v.getLsbD 7
    v := v.getLsbD 6
    b := v.getLsbD 4
    d := v.getLsbD 3
    i := v.getLsbD 2
    z := v.getLsbD 1
    c := v.getLsbD 0 }

/-- `SetNZ(v)` (00_scope.md R10): N is bit 7 of the result byte, Z says it is 0x00 (10_state.md R28, R33). -/
def Flags.setNZ (v : Byte) (p : Flags) : Flags := { p with n := v.getLsbD 7, z := v == 0 }

/-- The 9-bit sum `t = A + M + C` (R130). -/
def addTotal (a m : Byte) (c : Bool) : Nat := a.toNat + m.toNat + c.toNat

/-- `R = t mod 256` (R130). -/
def addResult (a m : Byte) (c : Bool) : Byte := BitVec.ofNat 8 (addTotal a m c)

/-- `t[8]`, the carry out (R130). -/
def addCarry (a m : Byte) (c : Bool) : Bool := (addTotal a m c).testBit 8

/-- `((A ^ R) & (M ^ R) & 0x80) != 0`, signed overflow (R130). -/
def addOverflow (a m r : Byte) : Bool := ((a ^^^ r) &&& (m ^^^ r) &&& 0x80) != 0

/-- The flags after `A + M + C`: C, V, N, Z written, D not read (R130). -/
def Flags.afterAdd (a m : Byte) (p : Flags) : Flags :=
  let r := addResult a m p.c
  { p with c := addCarry a m p.c, v := addOverflow a m r }.setNZ r

/-- The flags after comparing register `r` with `m`: C, Z, N written (R132). -/
def Flags.afterCompare (r m : Byte) (p : Flags) : Flags := { p with c := decide (m.toNat ≤ r.toNat) }.setNZ (r - m)

/-- The flags after BIT: Z from `A & M`, N and V from the memory operand (R143). -/
def Flags.afterBit (a m : Byte) (p : Flags) : Flags :=
  { p with z := (a &&& m) == 0, n := m.getLsbD 7, v := m.getLsbD 6 }

/-- The flags after a shift or rotate with result `r` and bit out `c`: C, N, Z written (R155). -/
def Flags.afterShift (r : Byte) (c : Bool) (p : Flags) : Flags := { p with c := c }.setNZ r

/-- ASL's function of the byte and the carry in (R156). -/
def aslByte (v : Byte) (_cin : Bool) : Byte × Bool := (v <<< 1, v.getLsbD 7)

/-- LSR's function (R157). -/
def lsrByte (v : Byte) (_cin : Bool) : Byte × Bool := (v >>> 1, v.getLsbD 0)

/-- ROL's function: the previous carry enters bit 0 (R158). -/
def rolByte (v : Byte) (cin : Bool) : Byte × Bool := ((v <<< 1) ||| BitVec.ofNat 8 cin.toNat, v.getLsbD 7)

/-- ROR's function: the previous carry enters bit 7 (R159). -/
def rorByte (v : Byte) (cin : Bool) : Byte × Bool := ((v >>> 1) ||| BitVec.ofNat 8 (cin.toNat * 128), v.getLsbD 0)

end Sys2Proof.Machine
end

