-- ==== Sys2Proof/Machine/Ops.lean ====
section
/-! DEFINITION. Machine/Ops.lean: the named operations over registers and memory: the address decoder (20_memory.md R52 to
R55), the two bus operations (R60, R61), the stack primitives (40_fetch_decode_addressing.md R120 to R122), taking the BRK
trap and returning from it (45_stack_flags_system.md R190, R191). -/

namespace Sys2Proof.Machine

/-! ### Registers -/

/-- `A <- v`. -/
def State.setA (v : Byte) (s : State) : State := { s with a := v }

/-- `X <- v`. -/
def State.setX (v : Byte) (s : State) : State := { s with x := v }

/-- `Y <- v`. -/
def State.setY (v : Byte) (s : State) : State := { s with y := v }

/-- `SP <- v`. -/
def State.setSp (v : Byte) (s : State) : State := { s with sp := v }

/-- `PC <- v`. -/
def State.setPc (v : Addr) (s : State) : State := { s with pc := v }

/-- `P <- p`, the seven flags. -/
def State.setP (p : Flags) (s : State) : State := { s with p := p }

/-- The phase. -/
def State.setPhase (h : Phase) (s : State) : State := { s with phase := h }

/-- The backing bytes. -/
def State.setMem (m : Memory) (s : State) : State := { s with mem := m }

/-- The record of the PPU port. -/
def State.setPpu (e : List PpuEvent) (s : State) : State := { s with ppu := e }

/-- `SetNZ(v)` on the state (00_scope.md R10). -/
def State.setNZ (v : Byte) (s : State) : State := s.setP (s.p.setNZ v)

/-! ### The address decoder -/

/-- The address is in the PPU window, 0x2000 to 0x3FFF (20_memory.md R52). -/
def inPpu (a : Addr) : Bool := decide (0x2000 ≤ a.toNat) && decide (a.toNat < 0x4000)

/-- The PPU register an address of the window selects: `a & 7` (R55). -/
def ppuRegister (a : Addr) : BitVec 3 := a.setWidth 3

/-- The key of the backing byte an address outside the PPU window selects (R54, R57, R58, R60): `RAM[a mod 2048]` below
0x2000; above, each window's byte under its own address. -/
def cellKey (a : Addr) : Nat := if a.toNat < 0x2000 then a.toNat % 0x800 else a.toNat

/-- The keys that are backing bytes: 2048 of RAM, and IO, IOTEST and CART (R52). -/
def isCell (k : Nat) : Bool := decide (k < 0x800) || (decide (0x4000 ≤ k) && decide (k < 0x10000))

/-! ### The backing bytes -/

/-- The byte under a key; a key that is not listed reads as `Config.memInit` (R68). -/
def Memory.read : Memory → Nat → Byte
  | [], k => Config.memInit k
  | (j, w) :: m, k => if j = k then w else Memory.read m k

/-- Store a byte under a key, in the canonical form: a byte equal to what the unlisted key reads as is not listed. -/
def Memory.write : Memory → Nat → Byte → Memory
  | [], k, v => if v = Config.memInit k then [] else [(k, v)]
  | (j, w) :: m, k, v =>
    if j < k then (j, w) :: Memory.write m k v
    else if j = k then (if v = Config.memInit k then m else (k, v) :: m)
    else (if v = Config.memInit k then (j, w) :: m else (k, v) :: (j, w) :: m)

/-- The canonical form from key `lo` up: keys strictly rising, each a backing byte, none holding what it would read as
unlisted. -/
def Memory.wfFrom : Nat → Memory → Bool
  | _, [] => true
  | lo, (k, v) :: m => decide (lo ≤ k) && isCell k && (v != Config.memInit k) && Memory.wfFrom (k + 1) m

/-- The canonical form of memory. -/
def Memory.wf (m : Memory) : Bool := Memory.wfFrom 0 m

/-! ### The bus -/

/-- The byte an address outside the PPU window holds (R60): what `MemRead` returns there, with no effect (R72). -/
def State.peek (s : State) (a : Addr) : Byte := s.mem.read (cellKey a)

/-- `MemRead(a, 1)` (R60): the byte, and the state after the access. In the PPU window the answer is `PPU_READ`, and the
read is an event at the port (R56, R72); elsewhere nothing changes. -/
def busRead (a : Addr) (s : State) : Byte × State :=
  if inPpu a then (Config.ppuRead s.ppu (ppuRegister a), s.setPpu (s.ppu ++ [.read (ppuRegister a)])) else (s.peek a, s)

/-- `MemWrite(a, 1, v)` (R61): one backing byte changes, or one event is emitted at the PPU port. -/
def busWrite (a : Addr) (v : Byte) (s : State) : State :=
  if inPpu a then s.setPpu (s.ppu ++ [.write (ppuRegister a) v]) else s.setMem (s.mem.write (cellKey a) v)

/-- Read the byte at PC and advance PC, modulo 65536 (40_fetch_decode_addressing.md R100, R101; 10_state.md R36). -/
def fetchByte (s : State) : Byte × State :=
  let r := busRead s.pc s
  (r.1, r.2.setPc (s.pc + 1))

/-! ### The stack -/

/-- The address SP designates: `0x0100 + SP` (10_state.md R24). -/
def stackAddr (sp : Byte) : Addr := 0x0100 + zext sp

/-- `Push(v)` (40_fetch_decode_addressing.md R120, R123). -/
def push (v : Byte) (s : State) : State := (busWrite (stackAddr s.sp) v s).setSp (s.sp - 1)

/-- `Pull()` (R121, R123). The stack page is RAM, so the read is no port event. -/
def pull (s : State) : Byte × State := (s.peek (stackAddr (s.sp + 1)), s.setSp (s.sp + 1))

/-- A 16-bit value is pushed high byte first (R122). -/
def push16 (w : Addr) (s : State) : State := push (lo8 w) (push (hi8 w) s)

/-- A 16-bit value is pulled low byte first (R122). -/
def pull16 (s : State) : Addr × State :=
  let l := pull s
  let h := pull l.2
  (word h.1 l.1, h.2)

/-! ### The software trap and its return -/

/-- The low byte's address of the BRK vector (20_memory.md R59). -/
def breakVector : Addr := 0xFFFE

/-- The 16-bit value at a vector, low byte first (20_memory.md R59, R63). Both vectors lie in CART. -/
def State.vector (s : State) (a : Addr) : Addr := word (s.peek (a + 1)) (s.peek a)

/-- Taking the BRK trap (45_stack_flags_system.md R190; 60_exceptions.md R232): PC high, PC low and the status byte with B
as it stood are pushed; then B is set; then PC is loaded from 0xFFFE. I and all else stay (log 10). -/
def takeBreak (s : State) : State :=
  let t := push s.p.toByte (push16 s.pc s)
  let u := t.setP { t.p with b := true }
  u.setPc (u.vector breakVector)

/-- Returning from the trap (R191; 60_exceptions.md R233): the status byte, PC low and PC high are pulled; nothing is added
to PC. -/
def returnFromBreak (s : State) : State :=
  let f := pull s
  let r := pull16 (f.2.setP (Flags.ofByte f.1))
  r.2.setPc r.1

end Sys2Proof.Machine
end

