-- ==== Sys2Proof/Machine/Operands.lean ====
section
/-! DEFINITION. Machine/Operands.lean: the addressing-mode resolver (40_fetch_decode_addressing.md R103 to R115) on operand
bytes already fetched, the data read (R116), the read-modify-write (R117), and the shared shapes of the families: load into
a register, combine with A, transfer, compare, shift, branch. -/

namespace Sys2Proof.Machine

/-- A little-endian pointer in the zero page, its second byte at `(z + 1) mod 256` (R114, R115, R65). The zero page is RAM,
so its reads are no port event. -/
def State.zeroPagePointer (s : State) (z : Byte) : Addr := word (s.peek (zext (z + 1))) (s.peek (zext z))

/-- The effective address of an operand in memory (R106 to R108, R110 to R112, R114, R115). -/
def effectiveAddr (m : MemOperand) (s : State) : Addr :=
  match m with
  | .zp d => zext d
  | .zpx d => zext (d + s.x)
  | .zpy d => zext (d + s.y)
  | .abs a => a
  | .abx a => a + zext s.x
  | .aby a => a + zext s.y
  | .izx d => s.zeroPagePointer (d + s.x)
  | .izy d => s.zeroPagePointer d + zext s.y

/-- The target of JMP (indirect): the pointer's high byte comes from the same page as its low byte (R113). -/
def indirectTarget (p : Addr) (s : State) : Addr × State :=
  let l := busRead p s
  let h := busRead ((p &&& 0xFF00) ||| ((p + 1) &&& 0x00FF)) l.2
  (word h.1 l.1, h.2)

/-- The target of a relative branch from PC, the address of the next instruction (R109). -/
def branchTarget (d : Byte) (s : State) : Addr := s.pc + sext d

/-- The data read `M` of an operand that is only read (R105, R116). -/
def readOperand (o : ReadOperand) (s : State) : Byte × State :=
  match o with
  | .imm v => (v, s)
  | .mem m => busRead (effectiveAddr m s) s

/-- Load a register from an operand: `reg <- M; SetNZ(M)` (46_load_store_transfer.md R210 to R212). -/
def loadRegister (set : Byte → State → State) (o : ReadOperand) (s : State) : State :=
  let r := readOperand o s
  (set r.1 r.2).setNZ r.1

/-- Transfer a byte to a register: `reg <- v; SetNZ(v)` (R216 to R220). -/
def transfer (set : Byte → State → State) (v : Byte) (s : State) : State := (set v s).setNZ v

/-- `A <- f A M; SetNZ(A)` (42_logic_incdec.md R140 to R142). -/
def combineWithA (f : Byte → Byte → Byte) (o : ReadOperand) (s : State) : State :=
  let r := readOperand o s
  (r.2.setA (f s.a r.1)).setNZ (f s.a r.1)

/-- `A <- (A + m + C) mod 256` with the flags of an addition (41_arithmetic_compare.md R130). -/
def addToA (m : Byte) (s : State) : State := (s.setA (addResult s.a m s.p.c)).setP (s.p.afterAdd s.a m)

/-- Compare a register's value with an operand (R132 to R134). -/
def compareWith (reg : Byte) (o : ReadOperand) (s : State) : State :=
  let r := readOperand o s
  r.2.setP (r.2.p.afterCompare reg r.1)

/-- One read of the effective address, one write of `f M` to it, then SetNZ (R117; 42_logic_incdec.md R144, R145). -/
def modifyMemory (f : Byte → Byte) (m : MemOperand) (s : State) : State :=
  let ea := effectiveAddr m s
  let r := busRead ea s
  (busWrite ea (f r.1) r.2).setNZ (f r.1)

/-- A shift or rotate of the accumulator or of a byte in memory (43_shift_rotate.md R155). -/
def shiftOperand (op : Byte → Bool → Byte × Bool) (o : ShiftOperand) (s : State) : State :=
  match o with
  | .acc =>
    let v := op s.a s.p.c
    (s.setA v.1).setP (s.p.afterShift v.1 v.2)
  | .mem m =>
    let ea := effectiveAddr m s
    let r := busRead ea s
    let v := op r.1 s.p.c
    (busWrite ea v.1 r.2).setP (s.p.afterShift v.1 v.2)

/-- A conditional branch (44_branch_jump.md R165). -/
def branch (cond : Bool) (d : Byte) (s : State) : State := if cond then s.setPc (branchTarget d s) else s

end Sys2Proof.Machine
end

