-- ==== Sys2Proof/Machine/Boot.lean ====
section
/-! DEFINITION. Machine/Boot.lean: the host's actions (70_reset_and_hazards.md R253): create, reset (R250, R251), load of a
program image (R254, R255); and where an instruction placed for the next step stands. -/

namespace Sys2Proof.Machine

/-- The low byte's address of the reset vector (20_memory.md R59). -/
def resetVector : Addr := 0xFFFC

/-- The `n` keys from `k` up that are backing bytes, each with the byte `memInit` gives it, in the canonical form. -/
def memoryFrom (memInit : Nat → Byte) : Nat → Nat → Memory
  | _, 0 => []
  | k, n + 1 =>
    if isCell k = true ∧ memInit k ≠ Config.memInit k then (k, memInit k) :: memoryFrom memInit (k + 1) n
    else memoryFrom memInit (k + 1) n

/-- The backing bytes before anything is placed or written (20_memory.md R68): `MEM_INIT`, any function of the key. -/
def initialMemory (memInit : Nat → Byte) : Memory := memoryFrom memInit 0 0x10000

/-- `new()` (R252, R253): the power-on state before any load. What the spec leaves open is an argument: the memory
(`MEM_INIT`, 20_memory.md R68), the flags (`P_RESET`, 10_state.md R43) and PC, unspecified until a load. The machine does not
run from it: a launch state is what a load gives (R252). -/
def create (memInit : Nat → Byte) (pReset : Flags) (pc : Addr) : State :=
  { a := 0x00
    x := 0x00
    y := 0x00
    sp := 0xFD
    pc := pc
    p := pReset
    phase := .fetch
    mem := initialMemory memInit
    ppu := []
    loaded := false }

/-- Reset (R250, R251), with `P_RESET` an argument: A, X, Y, SP, P and PC are assigned, phase and latch cleared whatever
they were (R267), every backing byte kept. It reads the vector and nothing else; the record of the port stays. -/
def hardReset (pReset : Flags) (s : State) : State :=
  { a := 0x00
    x := 0x00
    y := 0x00
    sp := 0xFD
    pc := s.vector resetVector
    p := pReset
    phase := .fetch
    mem := s.mem
    ppu := s.ppu
    loaded := s.loaded }

/-- Place bytes at consecutive addresses, directly in the backing bytes: no bus write and no port event (R254). -/
def placeBytes : Addr → List Byte → Memory → Memory
  | _, [], m => m
  | a, b :: bs, m => placeBytes (a + 1) bs (m.write (cellKey a) b)

/-- Load (R254, R255): an image of 1 to 49120 bytes is placed so that its last byte is at 0xFFFF, all other memory kept;
then reset; from then on the machine runs (R252). Any other size is refused. -/
def load (pReset : Flags) (image : List Byte) (s : State) : Result :=
  if 1 ≤ image.length ∧ image.length ≤ 49120 then
    .next
      (hardReset pReset
        { s with mem := placeBytes (BitVec.ofNat 16 (0x10000 - image.length)) image s.mem, loaded := true })
  else .refused (.imageSize image.length)

/-- Where an instruction of up to three bytes is placed for the next step: at PC, unless PC or one of the two addresses
after it is in the PPU window, which holds no bytes; then at 0x8000 (log 6). -/
def instructionPlace (s : State) : Addr :=
  if inPpu s.pc || inPpu (s.pc + 1) || inPpu (s.pc + 2) then 0x8000 else s.pc

/-- The state whose next step fetches and runs the given bytes: a loaded machine at an instruction boundary, PC at the
place, the bytes there. -/
def placeInstruction (bytes : List Byte) (s : State) : State :=
  { s with
    pc := instructionPlace s
    phase := .fetch
    mem := placeBytes (instructionPlace s) bytes s.mem
    loaded := true }

end Sys2Proof.Machine
end

