-- ==== Sys2Proof/Machine/Arithmetic.lean ====
section
/-! DEFINITION. Machine/Arithmetic.lean: ADC, SBC, CMP, CPX, CPY (41_arithmetic_compare.md). -/

namespace Sys2Proof.Machine

/-- ADC (R130): `A <- (A + M + C) mod 256`; C, V, N, Z. -/
def execAdc (o : ReadOperand) (s : State) : Result := .next (addToA (readOperand o s).1 (readOperand o s).2)

/-- SBC (R131): ADC of the one's complement of the operand; carry 1 is no borrow (log 14). -/
def execSbc (o : ReadOperand) (s : State) : Result := .next (addToA ((readOperand o s).1 ^^^ 0xFF) (readOperand o s).2)

/-- CMP (R132). -/
def execCmp (o : ReadOperand) (s : State) : Result := .next (compareWith s.a o s)

/-- CPX (R133). -/
def execCpx (o : ReadOperand) (s : State) : Result := .next (compareWith s.x o s)

/-- CPY (R134). -/
def execCpy (o : ReadOperand) (s : State) : Result := .next (compareWith s.y o s)

end Sys2Proof.Machine
end

