-- ==== Sys2Proof/Machine/Branch.lean ====
section
/-! DEFINITION. Machine/Branch.lean: the eight branches, JMP, JSR, RTS (44_branch_jump.md). PC is the address of the next instruction. -/

namespace Sys2Proof.Machine

/-- BCC (R166): branch if C = 0. -/
def execBcc (d : Byte) (s : State) : Result := .next (branch (!s.p.c) d s)

/-- BCS (R167): branch if C = 1. -/
def execBcs (d : Byte) (s : State) : Result := .next (branch s.p.c d s)

/-- BEQ (R168): branch if Z = 1. -/
def execBeq (d : Byte) (s : State) : Result := .next (branch s.p.z d s)

/-- BMI (R169): branch if N = 1. -/
def execBmi (d : Byte) (s : State) : Result := .next (branch s.p.n d s)

/-- BNE (R170): branch if Z = 0. -/
def execBne (d : Byte) (s : State) : Result := .next (branch (!s.p.z) d s)

/-- BPL (R171): branch if N = 0. -/
def execBpl (d : Byte) (s : State) : Result := .next (branch (!s.p.n) d s)

/-- BVC (R172): branch if V = 0. -/
def execBvc (d : Byte) (s : State) : Result := .next (branch (!s.p.v) d s)

/-- BVS (R173): branch if V = 1. -/
def execBvs (d : Byte) (s : State) : Result := .next (branch s.p.v d s)

/-- JMP absolute (R174). -/
def execJmp (a : Addr) (s : State) : Result := .next (s.setPc a)

/-- JMP indirect (R175, R113). -/
def execJmpInd (p : Addr) (s : State) : Result := .next ((indirectTarget p s).2.setPc (indirectTarget p s).1)

/-- JSR (R176): the address of its own last byte is pushed (log 13). -/
def execJsr (a : Addr) (s : State) : Result := .next ((push16 (s.pc - 1) s).setPc a)

/-- RTS (R177): one more than the pulled value (log 13). -/
def execRts (s : State) : Result := .next ((pull16 s).2.setPc ((pull16 s).1 + 1))

end Sys2Proof.Machine
end

