-- ==== Sys2Proof/Machine/LoadStore.lean ====
section
/-! DEFINITION. Machine/LoadStore.lean: loads, stores and register transfers (46_load_store_transfer.md). -/

namespace Sys2Proof.Machine

/-- LDA (R210). -/
def execLda (o : ReadOperand) (s : State) : Result := .next (loadRegister State.setA o s)

/-- LDX (R211). -/
def execLdx (o : ReadOperand) (s : State) : Result := .next (loadRegister State.setX o s)

/-- LDY (R212). -/
def execLdy (o : ReadOperand) (s : State) : Result := .next (loadRegister State.setY o s)

/-- STA (R213): one write, no read of the effective address, no flag. -/
def execSta (m : MemOperand) (s : State) : Result := .next (busWrite (effectiveAddr m s) s.a s)

/-- STX (R214). -/
def execStx (m : MemOperand) (s : State) : Result := .next (busWrite (effectiveAddr m s) s.x s)

/-- STY (R215). -/
def execSty (m : MemOperand) (s : State) : Result := .next (busWrite (effectiveAddr m s) s.y s)

/-- TAX (R216). -/
def execTax (s : State) : Result := .next (transfer State.setX s.a s)

/-- TAY (R217). -/
def execTay (s : State) : Result := .next (transfer State.setY s.a s)

/-- TXA (R218). -/
def execTxa (s : State) : Result := .next (transfer State.setA s.x s)

/-- TYA (R219). -/
def execTya (s : State) : Result := .next (transfer State.setA s.y s)

/-- TSX (R220). -/
def execTsx (s : State) : Result := .next (transfer State.setX s.sp s)

/-- TXS (R221): no flag is written (log 15). -/
def execTxs (s : State) : Result := .next (s.setSp s.x)

end Sys2Proof.Machine
end

