-- ==== Sys2Proof/Machine/Logic.lean ====
section
/-! DEFINITION. Machine/Logic.lean: AND, ORA, EOR, BIT, INC, DEC, INX, INY, DEX, DEY (42_logic_incdec.md; log 21). -/

namespace Sys2Proof.Machine

/-- Test the bits of a byte against A (R143). -/
def testBits (v : Byte) (s : State) : State := s.setP (s.p.afterBit s.a v)

/-- AND (R140). -/
def execAnd (o : ReadOperand) (s : State) : Result := .next (combineWithA (· &&& ·) o s)

/-- ORA (R141). -/
def execOra (o : ReadOperand) (s : State) : Result := .next (combineWithA (· ||| ·) o s)

/-- EOR (R142). -/
def execEor (o : ReadOperand) (s : State) : Result := .next (combineWithA (· ^^^ ·) o s)

/-- BIT (R143): Z from `A & M`, N and V from the memory operand; A unchanged. -/
def execBit (m : MemOperand) (s : State) : Result := .next (testBits (busRead (effectiveAddr m s) s).1 (busRead (effectiveAddr m s) s).2)

/-- INC (R144). -/
def execInc (m : MemOperand) (s : State) : Result := .next (modifyMemory (· + 1) m s)

/-- DEC (R145). -/
def execDec (m : MemOperand) (s : State) : Result := .next (modifyMemory (· - 1) m s)

/-- INX (R146). -/
def execInx (s : State) : Result := .next (transfer State.setX (s.x + 1) s)

/-- INY (R147). -/
def execIny (s : State) : Result := .next (transfer State.setY (s.y + 1) s)

/-- DEX (R148). -/
def execDex (s : State) : Result := .next (transfer State.setX (s.x - 1) s)

/-- DEY (R149). -/
def execDey (s : State) : Result := .next (transfer State.setY (s.y - 1) s)

end Sys2Proof.Machine
end

