-- ==== Sys2Proof/Machine/Shift.lean ====
section
/-! DEFINITION. Machine/Shift.lean: ASL, LSR, ROL, ROR on the accumulator or a byte in memory (43_shift_rotate.md R155). -/

namespace Sys2Proof.Machine

/-- ASL (R156). -/
def execAsl (o : ShiftOperand) (s : State) : Result := .next (shiftOperand aslByte o s)

/-- LSR (R157). -/
def execLsr (o : ShiftOperand) (s : State) : Result := .next (shiftOperand lsrByte o s)

/-- ROL (R158). -/
def execRol (o : ShiftOperand) (s : State) : Result := .next (shiftOperand rolByte o s)

/-- ROR (R159). -/
def execRor (o : ShiftOperand) (s : State) : Result := .next (shiftOperand rorByte o s)

end Sys2Proof.Machine
end

