-- ==== Sys2Proof/Machine/System.lean ====
section
/-! DEFINITION. Machine/System.lean: PHA, PHP, PLA, PLP, BRK, RTI, the seven flag operations, NOP and the undefined opcodes (45_stack_flags_system.md). -/

namespace Sys2Proof.Machine

/-- PHA (R185). -/
def execPha (s : State) : Result := .next (push s.a s)

/-- PHP (R186): bit 5 is 1, B as stored (log 11). -/
def execPhp (s : State) : Result := .next (push s.p.toByte s)

/-- PLA (R187): `A <- Pull(); SetNZ(A)`. -/
def execPla (s : State) : Result := .next (transfer State.setA (pull s).1 (pull s).2)

/-- PLP (R188): all seven flags from the pulled byte, B included. -/
def execPlp (s : State) : Result := .next ((pull s).2.setP (Flags.ofByte (pull s).1))

/-- BRK (R190): takes the software trap. -/
def execBrk (s : State) : Result := .next (takeBreak s)

/-- RTI (R191): returns from the software trap. -/
def execRti (s : State) : Result := .next (returnFromBreak s)

/-- CLC (R192). -/
def execClc (s : State) : Result := .next (s.setP { s.p with c := false })

/-- SEC (R193). -/
def execSec (s : State) : Result := .next (s.setP { s.p with c := true })

/-- CLI (R194). -/
def execCli (s : State) : Result := .next (s.setP { s.p with i := false })

/-- SEI (R195). -/
def execSei (s : State) : Result := .next (s.setP { s.p with i := true })

/-- CLD (R196). -/
def execCld (s : State) : Result := .next (s.setP { s.p with d := false })

/-- SED (R197). -/
def execSed (s : State) : Result := .next (s.setP { s.p with d := true })

/-- CLV (R198). -/
def execClv (s : State) : Result := .next (s.setP { s.p with v := false })

/-- NOP (R200): nothing. -/
def execNop (s : State) : Result := .next (s)

/-- UND (R205): any undefined opcode does nothing, exactly as NOP; the diagnostic is not state (10_state.md R41). -/
def execUnd (_op : Byte) (s : State) : Result := .next (s)

end Sys2Proof.Machine
end

