-- ==== Sys2Proof/Machine/Fetch.lean ====
section
/-! DEFINITION. Machine/Fetch.lean: fetching an instruction's bytes through the bus, from whatever window PC points into
(40_fetch_decode_addressing.md R100, R101; 20_memory.md R73), and running the instruction of a fetched opcode. -/

namespace Sys2Proof.Machine

/-- `n` bytes fetched one after another at PC, PC advancing past each. -/
def fetchBytes : Nat → State → List Byte × State
  | 0, s => ([], s)
  | n + 1, s =>
    let f := fetchByte s
    let g := fetchBytes n f.2
    (f.1 :: g.1, g.2)

/-- Steps 2 and 3 of R100 for an opcode already fetched: the operand bytes its mode has are fetched at PC, which is then
past the whole instruction. -/
def fetchOperands (op : Byte) (s : State) : Instr × State :=
  match operandCount op with
  | 0 => (decodeOpcode op 0 0, s)
  | 1 =>
    let f := fetchByte s
    (decodeOpcode op f.1 0, f.2)
  | _ =>
    let f := fetchByte s
    let g := fetchByte f.2
    (decodeOpcode op f.1 g.1, g.2)

/-- A machine runs only once an image has been loaded (70_reset_and_hazards.md R252, R253; 93_implementation_defined.md U6). -/
def whenLoaded (run : State → Result) (s : State) : Result := if s.loaded then run s else .refused .notLoaded

/-- Steps 2 to 5 of R100 for an opcode already fetched: its operand bytes, then its effect. -/
def runOpcode (op : Byte) (s : State) : Result :=
  let f := fetchOperands op s
  exec f.1 f.2

/-- From an instruction boundary, one instruction (00_scope.md R12; R100): the opcode at PC is fetched, then its operand
bytes, and the instruction runs. In the middle of an instruction, where only the tick machine can be, on to the next
boundary: the latched instruction runs, or the delay ends (log 7). -/
def runToBoundary (s : State) : Result :=
  match s.phase with
  | .fetch => runOpcode (fetchByte s).1 (fetchByte s).2
  | .execute op _ => runOpcode op (s.setPhase .fetch)
  | .delay _ => .next (s.setPhase .fetch)

end Sys2Proof.Machine
end

