-- ==== Sys2Proof/Machine/Step.lean ====
section
/-! DEFINITION. Machine/Step.lean: the instruction step (40_fetch_decode_addressing.md R100). -/

namespace Sys2Proof.Machine

/-- One instruction step of a loaded machine (00_scope.md R12; R100); before a load it is refused
(70_reset_and_hazards.md R252, 93_implementation_defined.md U6). -/
def step (s : State) : Host.Outcome State Fault Refusal := whenLoaded runToBoundary s

/-- The state with the instruction of bits `w` placed where the next step fetches, the bits from `nbits` up being 0: its
three bytes at PC, the machine counting as loaded (log 6). -/
def State.withFetchWord (s : State) (nbits w : Nat) : State := placeInstruction (tableBytes nbits w) s

end Sys2Proof.Machine
end

