-- ==== Sys2Proof/Machine/Timing.lean ====
section
/-! DEFINITION. Machine/Timing.lean: penalty cycles (40_fetch_decode_addressing.md R118; 44_branch_jump.md R165). They are
functions of the instruction and of the state in which it runs; no register or memory rule depends on them
(70_reset_and_hazards.md R268). -/

namespace Sys2Proof.Machine

/-- The page, the high byte, of two addresses differs (R111). -/
def crossed (base ea : Addr) : Bool := hi8 base != hi8 ea

/-- An operand in memory reports a page crossing: ABX, ABY and IZY only (R111, R112, R115). -/
def operandCrosses (m : MemOperand) (s : State) : Bool :=
  match m with
  | .abx a => crossed a (effectiveAddr m s)
  | .aby a => crossed a (effectiveAddr m s)
  | .izy d => crossed (s.zeroPagePointer d) (effectiveAddr m s)
  | .zp _ | .zpx _ | .zpy _ | .abs _ | .izx _ => false

/-- One penalty cycle for a page crossing, whatever the operation (R118; log 20). -/
def pagePenalty (m : MemOperand) (s : State) : Nat := (operandCrosses m s).toNat

/-- The penalty of an operand that is only read. -/
def readPenalty (o : ReadOperand) (s : State) : Nat :=
  match o with
  | .imm _ => 0
  | .mem m => pagePenalty m s

/-- The penalty of a shift's operand. -/
def shiftPenalty (o : ShiftOperand) (s : State) : Nat :=
  match o with
  | .acc => 0
  | .mem m => pagePenalty m s

/-- A branch's penalty: 1 if taken, 1 more if the target is on another page than the next instruction (R165). -/
def branchPenalty (cond : Bool) (d : Byte) (s : State) : Nat :=
  if cond then 1 + (crossed s.pc (branchTarget d s)).toNat else 0

/-- The penalty cycles of an instruction, from the state in which it runs (R118). -/
def penalty (i : Instr) (s : State) : Nat :=
  match i with
  | .adc o | .sbc o | .cmp o | .cpx o | .cpy o | .and o | .ora o | .eor o | .lda o | .ldx o | .ldy o => readPenalty o s
  | .bit m | .inc m | .dec m | .sta m | .stx m | .sty m => pagePenalty m s
  | .asl o | .lsr o | .rol o | .ror o => shiftPenalty o s
  | .bcc d => branchPenalty (!s.p.c) d s
  | .bcs d => branchPenalty s.p.c d s
  | .beq d => branchPenalty s.p.z d s
  | .bmi d => branchPenalty s.p.n d s
  | .bne d => branchPenalty (!s.p.z) d s
  | .bpl d => branchPenalty (!s.p.n) d s
  | .bvc d => branchPenalty (!s.p.v) d s
  | .bvs d => branchPenalty s.p.v d s
  | .jmp _ | .jmpInd _ | .jsr _ | .inx | .iny | .dex | .dey | .rts | .pha | .php | .pla | .plp | .brk | .rti | .clc | .sec
  | .cli | .sei | .cld | .sed | .clv | .nop | .und _ | .tax | .tay | .txa | .tya | .tsx | .txs => 0

/-- The base cycles of an opcode byte (30_encoding.md R84, R87). -/
def baseCycles (op : Byte) : Nat := (decodeOpcode op 0 0).baseCycles

end Sys2Proof.Machine
end

