-- ==== Sys2Proof/Machine/Cycle.lean ====
section
/-! DEFINITION. Machine/Cycle.lean: the cycle state machine (70_reset_and_hazards.md R262 to R266): one tick, and runs of
ticks. It refines the instruction step of Machine/Step.lean (R268). -/

namespace Sys2Proof.Machine

/-- The phase after the running tick: Delay(penalty) if there is a penalty, else Fetch (R264). -/
def phaseAfter (penaltyCycles : Nat) : Phase := if penaltyCycles = 0 then .fetch else .delay penaltyCycles

/-- The running tick: the latched opcode's operands are fetched and its effect applied, all within this tick (R264). -/
def runningTick (op : Byte) (s : State) : Result :=
  let f := fetchOperands op (s.setPhase .fetch)
  match exec f.1 f.2 with
  | .next t => .next (t.setPhase (phaseAfter (penalty f.1 f.2)))
  | .fault r => .fault r
  | .refused r => .refused r

/-- The tick by phase (R262): the Fetch tick reads the opcode and latches it with `base - 1` cycles left (R263); an Execute tick
counts down, and runs the instruction when one is left (R264); a Delay tick counts down to Fetch (R265). -/
def tickPhase (s : State) : Result :=
  match s.phase with
  | .fetch => .next ((fetchByte s).2.setPhase (.execute (fetchByte s).1 (baseCycles (fetchByte s).1 - 1)))
  | .execute op n => if 1 < n then .next (s.setPhase (.execute op (n - 1))) else runningTick op s
  | .delay m => .next (s.setPhase (if 1 < m then .delay (m - 1) else .fetch))

/-- One tick of a loaded machine; before a load it is refused (R252, R253; 93_implementation_defined.md U6). -/
def tick (s : State) : Result := whenLoaded tickPhase s

/-- `k` ticks. -/
def ticks : Nat → State → Result
  | 0, s => .next s
  | k + 1, s =>
    match tick s with
    | .next t => ticks k t
    | .fault r => .fault r
    | .refused r => .refused r

/-- The ticks from a state to its next instruction boundary: base + penalty from a boundary (R266). -/
def ticksLeft (s : State) : Nat :=
  match s.phase with
  | .fetch =>
    let f := fetchByte s
    let g := fetchOperands f.1 f.2
    baseCycles f.1 + penalty g.1 g.2
  | .execute op n =>
    let g := fetchOperands op s
    n + penalty g.1 g.2
  | .delay m => m

end Sys2Proof.Machine
end

