-- ==== Sys2Proof/Safety.lean ====
section
/-! DEFINITION. Safety.lean: what holds of every state a run can reach, and what counts as going on: the hardware has no
fault, halt or stop (60_exceptions.md R230; 70_reset_and_hazards.md R259), so a step of it always has a next state. -/

namespace Sys2Proof.Machine

/-- The phase is one the cycle state machine can be in (70_reset_and_hazards.md R262 to R265): Execute(n) with
`1 <= n <= base - 1` of the latched opcode, Delay(m) with `m` 1 or 2. -/
def Phase.legal : Phase → Bool
  | .fetch => true
  | .execute op n => decide (1 ≤ n) && decide (n ≤ baseCycles op - 1)
  | .delay m => decide (1 ≤ m) && decide (m ≤ 2)

/-- The invariant of the machine: memory has its canonical form and the phase is legal. -/
abbrev State.Inv (s : State) : Prop := s.mem.wf = true ∧ s.phase.legal = true

/-- The answer is a next state. -/
def GoesOn (r : Result) : Prop := ∃ t, r = .next t

/-- The next state of an answer, if it is one. -/
def nextState : Result → Option State
  | .next s => some s
  | .fault _ => none
  | .refused _ => none

/-! ### The terms of the claims -/

/-- N and Z of a result byte in numbers: N says it is 128 or more, Z that it is 0 (10_state.md R28, R33). -/
def signZero (r : Byte) (p : Flags) : Flags := { p with n := decide (128 ≤ r.toNat), z := decide (r.toNat = 0) }

/-- Two addresses outside the PPU window select the same backing byte (20_memory.md R54, R57, R58): both are RAM and equal
modulo 2048, or they are the same address. -/
def sameByte (a b : Addr) : Bool :=
  if a.toNat < 0x2000 ∧ b.toNat < 0x2000 then decide (a.toNat % 2048 = b.toNat % 2048) else decide (a = b)

/-- Every byte of memory reads in `t` as in `s`. -/
def MemoryKept (s t : State) : Prop := ∀ b, inPpu b = false → t.peek b = s.peek b

/-- The one byte of memory that reads otherwise in `t` than in `s` is the one at `ea`, which reads `v`; if `ea` is in the
PPU window, no byte of memory does. -/
def StoredOnly (ea : Addr) (v : Byte) (s t : State) : Prop :=
  ∀ b, inPpu b = false → t.peek b = if inPpu ea = false ∧ sameByte b ea = true then v else s.peek b

/-- The record of the port after a write of `v` to `ea`. -/
def portAfterWrite (ea : Addr) (v : Byte) (port : List PpuEvent) : List PpuEvent :=
  if inPpu ea then port ++ [.write (ppuRegister ea) v] else port

end Sys2Proof.Machine

namespace Sys2Proof

/-! ### Which instructions have an operand in memory -/

/-- The 21 operations that can have an operand in memory, each as a function of it (40_fetch_decode_addressing.md R116: the
reads, the read-modify-writes and the stores). -/
def memoryForms : List (MemOperand → Instr) :=
  [fun m => .adc (.mem m), fun m => .sbc (.mem m), fun m => .cmp (.mem m), fun m => .cpx (.mem m),
    fun m => .cpy (.mem m), fun m => .and (.mem m), fun m => .ora (.mem m), fun m => .eor (.mem m), .bit,
    fun m => .lda (.mem m), fun m => .ldx (.mem m), fun m => .ldy (.mem m), .sta, .stx, .sty, .inc, .dec,
    fun m => .asl (.mem m), fun m => .lsr (.mem m), fun m => .rol (.mem m), fun m => .ror (.mem m)]

/-! ### Which instructions write what -/

/-- What an instruction can write once PC is past it: the registers, the flags one by one, and memory. -/
inductive Written where
  | a | x | y | sp | pc | n | v | b | d | i | z | c | memory
  deriving DecidableEq, Repr

/-- What a shift writes besides N, Z and C: A in its accumulator form, else memory (43_shift_rotate.md R155). -/
def ShiftOperand.written : ShiftOperand → Written
  | .acc => .a
  | .mem _ => .memory

/-- What each instruction can write, by the rules of the state (10_state.md R21 to R24, R27 to R33, R35; 20_memory.md R71;
40_fetch_decode_addressing.md R117, R120). -/
def Instr.writes : Instr → List Written
  | .adc _ | .sbc _ => [.a, .n, .v, .z, .c]
  | .and _ | .ora _ | .eor _ | .lda _ | .txa | .tya => [.a, .n, .z]
  | .cmp _ | .cpx _ | .cpy _ => [.n, .z, .c]
  | .bit _ => [.n, .v, .z]
  | .inc _ | .dec _ => [.memory, .n, .z]
  | .ldx _ | .tax | .tsx | .inx | .dex => [.x, .n, .z]
  | .ldy _ | .tay | .iny | .dey => [.y, .n, .z]
  | .asl o | .lsr o | .rol o | .ror o => [o.written, .n, .z, .c]
  | .sta _ | .stx _ | .sty _ => [.memory]
  | .txs => [.sp]
  | .bcc _ | .bcs _ | .beq _ | .bmi _ | .bne _ | .bpl _ | .bvc _ | .bvs _ | .jmp _ | .jmpInd _ => [.pc]
  | .jsr _ => [.pc, .sp, .memory]
  | .rts => [.pc, .sp]
  | .pha | .php => [.sp, .memory]
  | .pla => [.a, .sp, .n, .z]
  | .plp => [.sp, .n, .v, .b, .d, .i, .z, .c]
  | .brk => [.pc, .sp, .b, .memory]
  | .rti => [.pc, .sp, .n, .v, .b, .d, .i, .z, .c]
  | .clc | .sec => [.c]
  | .cli | .sei => [.i]
  | .cld | .sed => [.d]
  | .clv => [.v]
  | .nop | .und _ => []

end Sys2Proof
end

