-- ==== Sys2Proof/Certificates/Slice0/Obligations.lean ====
section
/-! DEFINITION. Certificates/Slice0/Obligations.lean: what is claimed of the machine, from the numbered rules of spec/. Every
statement about an instruction is about its effect with PC already past it (10_state.md R35); `readOperand`, `effectiveAddr`,
`busRead` and `stackAddr` are the model's own functions, whose values are claimed by statements of their own. -/

open Sys2Proof Sys2Proof.Machine

/-! ### The step and the fetch -/

/-- 40_fetch_decode_addressing.md R100, steps 1 to 5: when the bytes delivered at PC decode to an instruction, the step of
a loaded machine runs it with PC past its bytes, from whatever window they came. -/
def Obligations.StepRunsTheDecodedInstruction : Prop :=
  ∀ (s : State) (i : Instr) (rest : List Byte), s.loaded = true → s.phase = .fetch →
    decode (fetchBytes 3 s).1 = .ok (i, rest) → step s = exec i (fetchBytes i.length s).2

/-- R100, R101, 10_state.md R35, R36: bytes fetched outside the PPU window are those memory holds at PC, PC + 1, ... modulo
65536, and the fetch changes PC alone. -/
def Obligations.FetchReadsTheBytesAtPc : Prop :=
  ∀ (n : Nat) (s : State), (∀ k < n, inPpu (s.pc + BitVec.ofNat 16 k) = false) →
    fetchBytes n s =
      ((List.range n).map fun k => s.peek (s.pc + BitVec.ofNat 16 k), { s with pc := s.pc + BitVec.ofNat 16 n })

/-- R101: "A fetch from the PPU window receives `PPU_READ`"; the read is an event at the port. -/
def Obligations.FetchFromThePpuWindowReceivesPpuRead : Prop :=
  ∀ s : State, 0x2000 ≤ s.pc.toNat → s.pc.toNat < 0x4000 →
    fetchByte s =
      (Config.ppuRead s.ppu (BitVec.ofNat 3 (s.pc.toNat % 8)),
        { s with pc := s.pc + 1, ppu := s.ppu ++ [.read (BitVec.ofNat 3 (s.pc.toNat % 8))] })

/-! ### Encoding -/

/-- Decoding the bytes of a well-formed instruction gives it back, whatever follows them (30_encoding.md R80 to R85). -/
def Obligations.DecodeAfterEncodeIsIdentity : Prop :=
  ∀ (i : Instr) (rest : List Byte), i.wf = true → decode (encode i ++ rest) = .ok (i, rest)

/-- Whatever decodes is a well-formed instruction whose bytes are exactly those read: each byte list has one meaning. -/
def Obligations.EncodeAfterDecodeIsIdentity : Prop :=
  ∀ (bs : List Byte) (i : Instr) (rest : List Byte), decode bs = .ok (i, rest) → i.wf = true ∧ encode i ++ rest = bs

/-- Words written out from the opcode map (R85, R91), one of each kind of mode. -/
def Obligations.WordsOfTheOpcodeMapDecode : Prop :=
  decode [0x18] = .ok (.clc, []) ∧ decode [0x0A] = .ok (.asl .acc, []) ∧ decode [0xA9, 0x10] = .ok (.lda (.imm 0x10), []) ∧
    decode [0xB6, 0x10] = .ok (.ldx (.mem (.zpy 0x10)), []) ∧ decode [0xF0, 0x02] = .ok (.beq 0x02, []) ∧
    decode [0xBD, 0x34, 0x12] = .ok (.lda (.mem (.abx 0x1234)), []) ∧
    decode [0x6C, 0x34, 0x12] = .ok (.jmpInd 0x1234, []) ∧ decode [0x91, 0x20] = .ok (.sta (.izy 0x20), []) ∧
    decode [0xFF, 0x12] = .ok (.und 0xFF, [0x12])

/-- R81, R84: the decoder is total: an opcode decodes whenever its operand bytes are there, and fails only for want of
them. -/
def Obligations.DecodingFailsOnlyForMissingBytes : Prop :=
  ∀ (op : Byte) (rest : List Byte),
    (∃ i r, decode (op :: rest) = .ok (i, r)) ↔ (decodeOpcode op 0 0).mode.operandBytes ≤ rest.length

/-- R88: the undefined opcodes are the 105 bytes listed, each of length 1 and 2 base cycles; every other byte decodes to a
legal operation. -/
def Obligations.UndefinedOpcodesAreTheListedBytes : Prop :=
  undefinedOpcodes.length = 105 ∧
    (∀ op b1 b2 : Byte, (∃ v, decodeOpcode op b1 b2 = .und v) ↔ op ∈ undefinedOpcodes) ∧
    ∀ op : Byte, op ∈ undefinedOpcodes →
      decodeOpcode op 0 0 = .und op ∧ (Instr.und op).length = 1 ∧ (Instr.und op).baseCycles = 2

/-! ### Memory -/

/-- 20_memory.md R52 to R55, R57, R58: every address selects exactly one target: one of the 2048 RAM bytes, a PPU register,
or the byte of its own address. -/
def Obligations.EveryAddressSelectsOneTarget : Prop :=
  ∀ a : Addr,
    (a.toNat < 0x2000 → inPpu a = false ∧ cellKey a = (a &&& 0x07FF).toNat) ∧
      (0x2000 ≤ a.toNat ∧ a.toNat < 0x4000 → inPpu a = true ∧ (ppuRegister a).toNat = (a.toNat - 0x2000) % 8) ∧
      (0x4000 ≤ a.toNat → inPpu a = false ∧ cellKey a = a.toNat) ∧ (inPpu a = false → isCell (cellKey a) = true)

/-- R62: a write followed by a read of the same address, or of a RAM mirror of it, gives the byte written. The memory has its
canonical form (`StepKeepsTheInvariant`). -/
def Obligations.ReadAfterWriteGivesTheByteWritten : Prop :=
  ∀ (s : State) (a : Addr) (v : Byte), s.Inv → inPpu a = false →
    (busRead a (busWrite a v s)).1 = v ∧
      (a.toNat < 0x2000 → ∀ b : Addr, b.toNat < 0x2000 → b &&& 0x07FF = a &&& 0x07FF →
        (busRead b (busWrite a v s)).1 = v)

/-- R61: a write changes exactly one backing byte, or emits one port event `(a & 7, v)`; no register changes. -/
def Obligations.WriteChangesOneTarget : Prop :=
  ∀ (s : State) (a : Addr) (v : Byte), s.Inv →
    (0x2000 ≤ a.toNat ∧ a.toNat < 0x4000 →
      busWrite a v s = { s with ppu := s.ppu ++ [.write (BitVec.ofNat 3 (a.toNat % 8)) v] }) ∧
      (¬(0x2000 ≤ a.toNat ∧ a.toNat < 0x4000) →
        busWrite a v s = { s with mem := (busWrite a v s).mem } ∧ (busWrite a v s).peek a = v ∧
          ∀ b : Addr, inPpu b = false → sameByte b a = false → (busWrite a v s).peek b = s.peek b)

/-- R60, R72: outside the PPU window a read changes nothing and repeating a write has no further effect; inside it each
access is one event, and a read's answer is the free value. -/
def Obligations.StorageIsIdempotentAndThePortSeesEveryAccess : Prop :=
  ∀ (s : State) (a : Addr) (v : Byte), s.Inv →
    (inPpu a = false → busRead a s = (s.peek a, s) ∧ busWrite a v (busWrite a v s) = busWrite a v s) ∧
      (inPpu a = true →
        busRead a s = (Config.ppuRead s.ppu (ppuRegister a), { s with ppu := s.ppu ++ [.read (ppuRegister a)] }) ∧
          busWrite a v s = { s with ppu := s.ppu ++ [.write (ppuRegister a) v] })

/-- The model's memory is canonical: two memories that read alike at every address are equal. -/
def Obligations.MemoriesThatReadAlikeAreEqual : Prop :=
  ∀ s t : State, s.Inv → t.Inv → MemoryKept s t → s.mem = t.mem

/-! ### Operands -/

/-- The datum of an operand: an operand in memory is the byte at the effective address, or the port's answer there
(40_fetch_decode_addressing.md R116), and its read changes nothing but the record of the port. The clause that an immediate
operand is its byte and is not read again is DEDUCED (log 29): it takes the byte that R105 and R116 read in step 4 to be the
one already read at fetch. -/
def Obligations.DataReadDeliversTheOperand : Prop :=
  ∀ (s : State) (v : Byte) (m : MemOperand),
    readOperand (.imm v) s = (v, s) ∧
      (inPpu (effectiveAddr m s) = false → readOperand (.mem m) s = (s.peek (effectiveAddr m s), s)) ∧
      (inPpu (effectiveAddr m s) = true →
        readOperand (.mem m) s =
          (Config.ppuRead s.ppu (ppuRegister (effectiveAddr m s)),
            { s with ppu := s.ppu ++ [.read (ppuRegister (effectiveAddr m s))] }))

/-- R106 to R108: zero-page addresses, the index added modulo 256. -/
def Obligations.ZeroPageAddressesStayInTheZeroPage : Prop :=
  ∀ (s : State) (d : Byte),
    (effectiveAddr (.zp d) s).toNat = d.toNat ∧ (effectiveAddr (.zpx d) s).toNat = (d.toNat + s.x.toNat) % 256 ∧
      (effectiveAddr (.zpy d) s).toNat = (d.toNat + s.y.toNat) % 256

/-- R110 to R112: absolute addresses, the index added modulo 65536. -/
def Obligations.AbsoluteAddressesWrapAt65536 : Prop :=
  ∀ (s : State) (a : Addr),
    effectiveAddr (.abs a) s = a ∧ (effectiveAddr (.abx a) s).toNat = (a.toNat + s.x.toNat) % 65536 ∧
      (effectiveAddr (.aby a) s).toNat = (a.toNat + s.y.toNat) % 65536

/-- R114, R115 (log 16 for the wrap of the pointer's second byte, the spec's decision D10): the pointer's low byte is at `z`
and its high byte at `(z + 1) mod 256`; `z` is `(d + X) mod 256` for (zp,X) and `d` for (zp),Y, where Y is added to the
16-bit base. -/
def Obligations.PointersAreReadInsideTheZeroPage : Prop :=
  ∀ (s : State) (d : Byte),
    (effectiveAddr (.izx d) s).toNat =
        256 * (s.peek (BitVec.ofNat 16 ((d.toNat + s.x.toNat + 1) % 256))).toNat +
          (s.peek (BitVec.ofNat 16 ((d.toNat + s.x.toNat) % 256))).toNat ∧
      (effectiveAddr (.izy d) s).toNat =
        (256 * (s.peek (BitVec.ofNat 16 ((d.toNat + 1) % 256))).toNat + (s.peek (BitVec.ofNat 16 d.toNat)).toNat +
          s.y.toNat) % 65536

/-! ### Loads, stores, transfers -/

/-- 46_load_store_transfer.md R210 to R212: the register receives the operand, N and Z follow it, nothing else changes. -/
def Obligations.LoadsPutTheOperandInTheRegister : Prop :=
  ∀ (o : ReadOperand) (s : State),
    let v := (readOperand o s).1
    let port := (readOperand o s).2.ppu
    exec (.lda o) s = .next { s with a := v, p := signZero v s.p, ppu := port } ∧
      exec (.ldx o) s = .next { s with x := v, p := signZero v s.p, ppu := port } ∧
      exec (.ldy o) s = .next { s with y := v, p := signZero v s.p, ppu := port }

/-- R213 to R215: a store writes the register to the effective address, makes no read of it, touches no flag and no
register; every other byte of memory reads as before. -/
def Obligations.StoresWriteOnlyTheEffectiveAddress : Prop :=
  ∀ (m : MemOperand) (s : State), s.Inv →
    ∀ iv ∈ [(Instr.sta m, s.a), (Instr.stx m, s.x), (Instr.sty m, s.y)],
      ∃ t, exec iv.1 s = .next t ∧
        t = { s with mem := t.mem, ppu := portAfterWrite (effectiveAddr m s) iv.2 s.ppu } ∧
        StoredOnly (effectiveAddr m s) iv.2 s t

/-- R216 to R220: the destination receives the source, N and Z follow it, nothing else changes. -/
def Obligations.TransfersCopyAndSetSignAndZero : Prop :=
  ∀ s : State,
    exec .tax s = .next { s with x := s.a, p := signZero s.a s.p } ∧
      exec .tay s = .next { s with y := s.a, p := signZero s.a s.p } ∧
      exec .txa s = .next { s with a := s.x, p := signZero s.x s.p } ∧
      exec .tya s = .next { s with a := s.y, p := signZero s.y s.p } ∧
      exec .tsx s = .next { s with x := s.sp, p := signZero s.sp s.p }

/-- The spec's decision D17 (R221, log 15): TXS sets SP from X and writes no flag. -/
def Obligations.TxsWritesNoFlag : Prop := ∀ s : State, exec .txs s = .next { s with sp := s.x }

/-! ### Arithmetic, compare, logic -/

/-- 41_arithmetic_compare.md R130: the sum modulo 256, carry from bit 8, overflow both as the XOR formula and as a signed
sum outside -128 to 127, N and Z from the result; D is not read, I, D, B and all else are unchanged. -/
def Obligations.AdcAddsInBinary : Prop :=
  ∀ (o : ReadOperand) (s : State),
    let m := (readOperand o s).1
    let total := s.a.toNat + m.toNat + s.p.c.toNat
    let signed := s.a.toInt + m.toInt + (s.p.c.toNat : Int)
    ∃ t, exec (.adc o) s = .next t ∧ t.a.toNat = total % 256 ∧ t.p.c = decide (255 < total) ∧
      t.p.v = (((s.a ^^^ t.a) &&& (m ^^^ t.a) &&& 0x80#8) != 0) ∧ (t.p.v = true ↔ ¬(-128 ≤ signed ∧ signed ≤ 127)) ∧
      t = { s with a := t.a, p := { signZero t.a s.p with v := t.p.v, c := t.p.c }, ppu := (readOperand o s).2.ppu }

/-- The spec's decision D16 (R131, log 14): the difference less the borrow modulo 256; carry says there was no borrow;
overflow says the signed difference is outside -128 to 127. D is not read, all else is unchanged. -/
def Obligations.SbcSubtractsWithBorrow : Prop :=
  ∀ (o : ReadOperand) (s : State),
    let m := (readOperand o s).1
    let difference := (s.a.toNat : Int) - m.toNat - (1 - s.p.c.toNat)
    let signed := s.a.toInt - m.toInt - (1 - (s.p.c.toNat : Int))
    ∃ t, exec (.sbc o) s = .next t ∧ (t.a.toNat : Int) = difference % 256 ∧ t.p.c = decide (0 ≤ difference) ∧
      (t.p.v = true ↔ ¬(-128 ≤ signed ∧ signed ≤ 127)) ∧
      t = { s with a := t.a, p := { signZero t.a s.p with v := t.p.v, c := t.p.c }, ppu := (readOperand o s).2.ppu }

/-- R132 to R134: carry says register >= operand, unsigned; zero says they are equal; sign is bit 7 of the difference; the
register, V, I, D, B and all else are unchanged. -/
def Obligations.ComparesSetCarryZeroSign : Prop :=
  ∀ (o : ReadOperand) (s : State),
    let m := (readOperand o s).1
    ∀ ir ∈ [(Instr.cmp o, s.a), (Instr.cpx o, s.x), (Instr.cpy o, s.y)],
      exec ir.1 s =
        .next
          { s with
            p :=
              { s.p with
                c := decide (m.toNat ≤ ir.2.toNat)
                z := decide (ir.2 = m)
                n := decide (128 ≤ (ir.2.toNat + 256 - m.toNat) % 256) }
            ppu := (readOperand o s).2.ppu }

/-- The 6502 semantics the spec supplies under D8 (42_logic_incdec.md R140 to R142, log 21): bit by bit into A, N and Z from
the result, nothing else changes. -/
def Obligations.LogicCombinesBitByBit : Prop :=
  ∀ (o : ReadOperand) (s : State),
    let m := (readOperand o s).1
    ∀ f ∈ [(Instr.and o, and), (Instr.ora o, or), (Instr.eor o, Bool.xor)],
      ∃ t, exec f.1 s = .next t ∧ (∀ k, k < 8 → t.a.getLsbD k = f.2 (s.a.getLsbD k) (m.getLsbD k)) ∧
        t = { s with a := t.a, p := signZero t.a s.p, ppu := (readOperand o s).2.ppu }

/-- D8 (R143, log 21): Z says A and the operand share no set bit, N and V are bits 7 and 6 of the operand; A and all else
are unchanged. -/
def Obligations.BitTestsTheOperand : Prop :=
  ∀ (m : MemOperand) (s : State),
    let v := (busRead (effectiveAddr m s) s).1
    exec (.bit m) s =
      .next
        { s with
          p :=
            { s.p with
              z := decide ((s.a &&& v).toNat = 0)
              n := decide (128 ≤ v.toNat)
              v := decide (64 ≤ v.toNat % 128) }
          ppu := (busRead (effectiveAddr m s) s).2.ppu }

/-- D8 (R144, R145, log 21): one read of the effective address, one write of the byte plus or minus 1 modulo 256; N and Z
from it, C and V and every register unchanged; every other byte of memory reads as before. -/
def Obligations.IncDecChangeOneByte : Prop :=
  ∀ (m : MemOperand) (s : State), s.Inv →
    let ea := effectiveAddr m s
    let v := (busRead ea s).1
    ∀ ir ∈ [(Instr.inc m, (v.toNat + 1) % 256), (Instr.dec m, (v.toNat + 255) % 256)],
      ∃ t, exec ir.1 s = .next t ∧
        t =
          { s with
            p := signZero (BitVec.ofNat 8 ir.2) s.p
            mem := t.mem
            ppu := portAfterWrite ea (BitVec.ofNat 8 ir.2) (busRead ea s).2.ppu } ∧
        StoredOnly ea (BitVec.ofNat 8 ir.2) s t

/-- D8 (R146 to R149, log 21): X or Y plus or minus 1 modulo 256; N and Z from it, C and V and all else unchanged. -/
def Obligations.IndexIncDecWrap : Prop :=
  ∀ s : State,
    let plus (v : Byte) : Byte := BitVec.ofNat 8 ((v.toNat + 1) % 256)
    let minus (v : Byte) : Byte := BitVec.ofNat 8 ((v.toNat + 255) % 256)
    exec .inx s = .next { s with x := plus s.x, p := signZero (plus s.x) s.p } ∧
      exec .iny s = .next { s with y := plus s.y, p := signZero (plus s.y) s.p } ∧
      exec .dex s = .next { s with x := minus s.x, p := signZero (minus s.x) s.p } ∧
      exec .dey s = .next { s with y := minus s.y, p := signZero (minus s.y) s.p }

/-! ### Shifts and rotates -/

/-- 43_shift_rotate.md R155 to R159, accumulator form: the byte shifted by one, the previous carry entering a rotate, C the
bit shifted out, N and Z from the result (that N is written is the spec's general knowledge, log 21); memory and all else
unchanged. -/
def Obligations.AccumulatorShiftsMoveOneBit : Prop :=
  ∀ s : State,
    let v := s.a.toNat
    let c := s.p.c.toNat
    ∀ f ∈ [(Instr.asl .acc, 2 * v % 256, decide (128 ≤ v)), (Instr.lsr .acc, v / 2, decide (v % 2 = 1)),
        (Instr.rol .acc, 2 * v % 256 + c, decide (128 ≤ v)), (Instr.ror .acc, v / 2 + 128 * c, decide (v % 2 = 1))],
      ∃ t, exec f.1 s = .next t ∧ t.a.toNat = f.2.1 ∧
        t = { s with a := t.a, p := { signZero t.a s.p with c := f.2.2 } }

/-- R155 to R159, memory form: the byte at the effective address is read once and its shift written there once; A is neither
read nor written, Z and N come from the byte computed (N: log 21); every other byte of memory reads as before. -/
def Obligations.MemoryShiftsChangeOneByte : Prop :=
  ∀ (m : MemOperand) (s : State), s.Inv →
    let ea := effectiveAddr m s
    let v := (busRead ea s).1.toNat
    let c := s.p.c.toNat
    ∀ f ∈ [(Instr.asl (.mem m), 2 * v % 256, decide (128 ≤ v)), (Instr.lsr (.mem m), v / 2, decide (v % 2 = 1)),
        (Instr.rol (.mem m), 2 * v % 256 + c, decide (128 ≤ v)), (Instr.ror (.mem m), v / 2 + 128 * c, decide (v % 2 = 1))],
      ∃ t, exec f.1 s = .next t ∧
        t =
          { s with
            p := { signZero (BitVec.ofNat 8 f.2.1) s.p with c := f.2.2 }
            mem := t.mem
            ppu := portAfterWrite ea (BitVec.ofNat 8 f.2.1) (busRead ea s).2.ppu } ∧
        StoredOnly ea (BitVec.ofNat 8 f.2.1) s t

/-! ### Control transfer -/

/-- 44_branch_jump.md R165 to R173: each branch tests its one flag; taken, PC is the target, the next instruction's address
plus the signed displacement modulo 65536; nothing else changes; the penalty is 0 not taken, 1 taken, 2 taken to another
page than the next instruction's, over 2 base cycles. -/
def Obligations.BranchesTestOneFlag : Prop :=
  ∀ (d : Byte) (s : State),
    let target : Addr := BitVec.ofInt 16 ((s.pc.toNat : Int) + d.toInt)
    ∀ ic ∈ [(Instr.bcc d, decide (s.p.c = false)), (Instr.bcs d, decide (s.p.c = true)),
        (Instr.beq d, decide (s.p.z = true)), (Instr.bmi d, decide (s.p.n = true)), (Instr.bne d, decide (s.p.z = false)),
        (Instr.bpl d, decide (s.p.n = false)), (Instr.bvc d, decide (s.p.v = false)), (Instr.bvs d, decide (s.p.v = true))],
      exec ic.1 s = .next { s with pc := if ic.2 then target else s.pc } ∧ ic.1.baseCycles = 2 ∧
        penalty ic.1 s = if ic.2 then (if target.toNat / 256 = s.pc.toNat / 256 then 1 else 2) else 0

/-- D8 (R174, log 21) and D11 (R175, R113, log 17): JMP absolute sets PC to its operand; JMP indirect takes its target's low
byte at the pointer and its high byte at the next address of the SAME page, and reads the port twice, low byte first, for a
pointer in the PPU window; nothing else changes. -/
def Obligations.JumpsSetPc : Prop :=
  ∀ (p : Addr) (s : State),
    let q : Addr := BitVec.ofNat 16 (p.toNat / 256 * 256 + (p.toNat + 1) % 256)
    exec (.jmp p) s = .next { s with pc := p } ∧
      (inPpu p = false → exec (.jmpInd p) s = .next { s with pc := word (s.peek q) (s.peek p) }) ∧
      (inPpu p = true →
        exec (.jmpInd p) s =
          .next
            { s with
              pc :=
                word (Config.ppuRead (s.ppu ++ [.read (ppuRegister p)]) (ppuRegister q))
                  (Config.ppuRead s.ppu (ppuRegister p))
              ppu := s.ppu ++ [.read (ppuRegister p), .read (ppuRegister q)] })

/-- D13, D12 (R176, R122, R123, log 12, log 13): JSR stores the address of its own last byte, high byte at the address SP
designates and low byte below it inside page 1, lowers SP by 2 and jumps; every other byte and all else unchanged. -/
def Obligations.JsrPushesTheReturnAddressLessOne : Prop :=
  ∀ (a : Addr) (s : State), s.Inv →
    ∃ t, exec (.jsr a) s = .next t ∧ t = { s with pc := a, sp := s.sp - 2, mem := t.mem } ∧
      ∀ b, inPpu b = false →
        t.peek b =
          if sameByte b (stackAddr s.sp) then hi8 (s.pc - 1)
          else if sameByte b (stackAddr (s.sp - 1)) then lo8 (s.pc - 1) else s.peek b

/-- D13, D12 (R177, log 12, log 13): RTS pulls low then high inside page 1, raises SP by 2 and continues one past the pulled
address; memory and all else unchanged. -/
def Obligations.RtsContinuesPastThePulledAddress : Prop :=
  ∀ s : State,
    exec .rts s =
      .next
        { s with
          pc := BitVec.ofNat 16 (256 * (s.peek (stackAddr (s.sp + 2))).toNat + (s.peek (stackAddr (s.sp + 1))).toNat + 1)
          sp := s.sp + 2 }

/-- R176, R177 together (log 13): RTS right after JSR, wherever the subroutine stands, continues at the instruction after
the JSR with SP and every register as before the call. -/
def Obligations.RtsUndoesJsr : Prop :=
  ∀ (a b : Addr) (s t : State), s.Inv → exec (.jsr a) s = .next t →
    ∃ u, exec .rts { t with pc := b } = .next u ∧ u = { s with mem := t.mem }

/-! ### Stack, trap, flags -/

/-- 40_fetch_decode_addressing.md R120, R123 and D12 (45_stack_flags_system.md R185, R186, log 11, log 12): PHA stores A and
PHP stores the status byte at the address SP designates, then SP falls by 1 modulo 256; every other byte and all else
unchanged. -/
def Obligations.PushesStoreAtTheStackPointer : Prop :=
  ∀ s : State, s.Inv →
    ∀ iv ∈ [(Instr.pha, s.a), (Instr.php, s.p.toByte)],
      ∃ t, exec iv.1 s = .next t ∧ t = { s with sp := BitVec.ofNat 8 ((s.sp.toNat + 255) % 256), mem := t.mem } ∧
        StoredOnly (BitVec.ofNat 16 (0x100 + s.sp.toNat)) iv.2 s t

/-- R121, R123, R187, R188, D12, D15 (log 11, log 12): PLA and PLP raise SP by 1 modulo 256 and take the byte there, A with
N and Z from it, P with all seven flags from it; memory and all else unchanged. -/
def Obligations.PullsTakeTheByteAboveTheStackPointer : Prop :=
  ∀ s : State,
    let sp : Byte := BitVec.ofNat 8 ((s.sp.toNat + 1) % 256)
    let v := s.peek (BitVec.ofNat 16 (0x100 + sp.toNat))
    exec .pla s = .next { s with a := v, sp := sp, p := signZero v s.p } ∧
      exec .plp s = .next { s with sp := sp, p := Flags.ofByte v }

/-- R121: "PHA then PLA restores the original accumulator value and leaves the stack pointer unchanged", and PHP then PLP
restores every flag, whatever A and P hold between (log 12 for the discipline). -/
def Obligations.PullUndoesPush : Prop :=
  ∀ (s t u : State) (v : Byte) (q : Flags), s.Inv → exec .pha s = .next t → exec .php s = .next u →
    (∃ w, exec .pla { t with a := v } = .next w ∧ w.a = s.a ∧ w.sp = s.sp) ∧
      ∃ w, exec .plp { u with p := q } = .next w ∧ w.p = s.p ∧ w.sp = s.sp

/-- 10_state.md R34, R26: ToByte and FromByte are exact, bit 5 of the byte is always 1 and is ignored on the way back; the
seven flags are independently addressable: setting one sets its bit of the byte and no other. -/
def Obligations.StatusByteConversionIsExact : Prop :=
  (∀ p : Flags,
      p.toByte.toNat =
          p.n.toNat * 128 + p.v.toNat * 64 + 32 + p.b.toNat * 16 + p.d.toNat * 8 + p.i.toNat * 4 + p.z.toNat * 2 +
            p.c.toNat ∧
        p.toByte.getLsbD 5 = true ∧ Flags.ofByte p.toByte = p) ∧
    (∀ v : Byte,
      (Flags.ofByte v).toByte = v ||| 0x20#8 ∧
        Flags.ofByte v =
          { n := v.getLsbD 7
            v := v.getLsbD 6
            b := v.getLsbD 4
            d := v.getLsbD 3
            i := v.getLsbD 2
            z := v.getLsbD 1
            c := v.getLsbD 0 }) ∧
    ∀ (p : Flags) (x : Bool),
      ∀ fk ∈ [({ p with n := x }, 7), ({ p with v := x }, 6), ({ p with b := x }, 4), ({ p with d := x }, 3),
          ({ p with i := x }, 2), ({ p with z := x }, 1), ({ p with c := x }, 0)],
        fk.1.toByte.getLsbD fk.2 = x ∧ ∀ k < 8, k ≠ fk.2 → fk.1.toByte.getLsbD k = p.toByte.getLsbD k

/-- D14, D12 (R190; 60_exceptions.md R232; log 10, log 12): BRK stores PC high, PC low and the status byte with the old B at
descending addresses of page 1, lowers SP by 3, sets B alone among the flags, and loads PC from 0xFFFE and 0xFFFF; every
other byte and all else unchanged, I included. -/
def Obligations.BrkSavesPcAndStatusAndVectors : Prop :=
  ∀ s : State, s.Inv →
    ∃ t, exec .brk s = .next t ∧
      t =
        { s with
          pc := word (s.peek 0xFFFF) (s.peek 0xFFFE)
          sp := s.sp - 3
          p := { s.p with b := true }
          mem := t.mem } ∧
      ∀ b, inPpu b = false →
        t.peek b =
          if sameByte b (stackAddr s.sp) then hi8 s.pc
          else if sameByte b (stackAddr (s.sp - 1)) then lo8 s.pc
          else if sameByte b (stackAddr (s.sp - 2)) then s.p.toByte else s.peek b

/-- D13, D15 (R191; 60_exceptions.md R233; log 11, log 12): RTI pulls the status byte into all seven flags, then PC low, then
PC high, adds nothing, and raises SP by 3; memory and all else unchanged. -/
def Obligations.RtiRestoresStatusAndPc : Prop :=
  ∀ s : State,
    exec .rti s =
      .next
        { s with
          p := Flags.ofByte (s.peek (stackAddr (s.sp + 1)))
          pc := word (s.peek (stackAddr (s.sp + 3))) (s.peek (stackAddr (s.sp + 2)))
          sp := s.sp + 3 }

/-- 60_exceptions.md R233, R191: an RTI after a BRK, whatever the handler did to A, X, Y, P and PC, resumes at the byte after
the BRK opcode with P, B included, and SP as before the BRK (log 10, log 12). -/
def Obligations.RtiUndoesBrk : Prop :=
  ∀ (s t : State) (a x y : Byte) (pc : Addr) (q : Flags), s.Inv → exec .brk s = .next t →
    ∃ u, exec .rti { t with a := a, x := x, y := y, pc := pc, p := q } = .next u ∧ u.pc = s.pc ∧ u.p = s.p ∧ u.sp = s.sp

/-- D8 (45_stack_flags_system.md R192 to R198, log 21): each flag operation writes its one flag and nothing else. -/
def Obligations.FlagOperationsWriteOneFlag : Prop :=
  ∀ s : State,
    exec .clc s = .next { s with p := { s.p with c := false } } ∧ exec .sec s = .next { s with p := { s.p with c := true } } ∧
      exec .cli s = .next { s with p := { s.p with i := false } } ∧
      exec .sei s = .next { s with p := { s.p with i := true } } ∧
      exec .cld s = .next { s with p := { s.p with d := false } } ∧
      exec .sed s = .next { s with p := { s.p with d := true } } ∧
      exec .clv s = .next { s with p := { s.p with v := false } }

/-- R205, R200 (NOP: D8, log 21): NOP and every undefined opcode change nothing at all. -/
def Obligations.NopAndUndefinedChangeNothing : Prop :=
  ∀ (op : Byte) (s : State), exec .nop s = .next s ∧ exec (.und op) s = .next s

/-- R205: a step at any undefined opcode advances PC by one, modulo 65536: no register, flag, memory byte or port event
changes; it takes 2 ticks. -/
def Obligations.StepAtAnUndefinedOpcodeAdvancesPcByOne : Prop :=
  ∀ s : State, s.loaded = true → s.phase = .fetch → inPpu s.pc = false → s.peek s.pc ∈ undefinedOpcodes →
    step s = .next { s with pc := BitVec.ofNat 16 ((s.pc.toNat + 1) % 65536) } ∧ ticksLeft s = 2

/-! ### Whole-machine rules -/

/-- 60_exceptions.md R230; R100, R124: every operation is defined for every value, and so a loaded machine always goes on:
its step and its tick have a next state. (Before a load: `LoadPlacesTheImageAndResets`.) -/
def Obligations.ALoadedMachineNeverFaultsOrRefuses : Prop :=
  (∀ (i : Instr) (s : State), GoesOn (exec i s)) ∧ ∀ s : State, s.loaded = true → GoesOn (step s) ∧ GoesOn (tick s)

/-- 10_state.md R21 to R24, R35, and R38 (no instruction reads or writes the phase): a register changes only by the
instructions its rule names; none changes whether an image is loaded (the model's own field, log 3). -/
def Obligations.RegistersChangeOnlyByTheirWriters : Prop :=
  ∀ (i : Instr) (s t : State), exec i s = .next t →
    (.a ∉ i.writes → t.a = s.a) ∧ (.x ∉ i.writes → t.x = s.x) ∧ (.y ∉ i.writes → t.y = s.y) ∧
      (.sp ∉ i.writes → t.sp = s.sp) ∧ (.pc ∉ i.writes → t.pc = s.pc) ∧ t.phase = s.phase ∧ t.loaded = s.loaded

/-- 10_state.md R27 to R33: a flag changes only by the instructions its rule names. -/
def Obligations.FlagsChangeOnlyByTheirWriters : Prop :=
  ∀ (i : Instr) (s t : State), exec i s = .next t →
    (.c ∉ i.writes → t.p.c = s.p.c) ∧ (.z ∉ i.writes → t.p.z = s.p.z) ∧ (.n ∉ i.writes → t.p.n = s.p.n) ∧
      (.i ∉ i.writes → t.p.i = s.p.i) ∧ (.d ∉ i.writes → t.p.d = s.p.d) ∧ (.b ∉ i.writes → t.p.b = s.p.b) ∧
      (.v ∉ i.writes → t.p.v = s.p.v)

/-- R117, R120; 20_memory.md R71: only stores, read-modify-writes and pushes change memory, and a push changes only page 1:
every other instruction leaves every byte alone. -/
def Obligations.MemoryChangesOnlyByItsWriters : Prop :=
  ∀ (i : Instr) (s t : State), exec i s = .next t →
    (.memory ∉ i.writes → MemoryKept s t) ∧
      (i = .pha ∨ i = .php ∨ i = .brk ∨ (∃ a, i = .jsr a) →
        ∀ b, inPpu b = false → (∀ k : Byte, sameByte b (stackAddr k) = false) → t.peek b = s.peek b)

/-- 10_state.md R29, R30, R31: I, D and B are read only by PHP and BRK: any other instruction does the same whatever they
hold, up to the flag itself. -/
def Obligations.InterruptDecimalBreakFlagsGateNothing : Prop :=
  ∀ (i : Instr) (s t : State) (fi fd fb : Bool), i ≠ .php → i ≠ .brk → exec i s = .next t →
    exec i { s with p := { s.p with i := fi, d := fd, b := fb } } =
      .next
        { t with
          p :=
            { t.p with
              i := if .i ∈ i.writes then t.p.i else fi
              d := if .d ∈ i.writes then t.p.d else fd
              b := if .b ∈ i.writes then t.p.b else fb } }

/-- The invariant of the machine, the canonical form of memory and a legal phase, is kept by every step, which ends at an
instruction boundary. For a step taken inside an instruction (phase Execute or Delay) where it ends is the model's DESIGN
CHOICE (log 7); the spec gives the step from a boundary only (R100). -/
def Obligations.StepKeepsTheInvariant : Prop := ∀ s t : State, s.Inv → step s = .next t → t.Inv ∧ t.phase = .fetch

/-- The invariant is kept by every tick (70_reset_and_hazards.md R262 to R265). -/
def Obligations.TickKeepsTheInvariant : Prop := ∀ s t : State, s.Inv → tick s = .next t → t.Inv

/-- The invariant holds right after reset. -/
def Obligations.ResetStateMeetsTheInvariant : Prop := State.reset.Inv

/-! ### The cycle state machine -/

/-- 70_reset_and_hazards.md R266, R268: the tick machine refines the step: after exactly the base and penalty ticks of an
instruction the state is that of the instruction step; from inside an instruction, after the ticks left of it. -/
def Obligations.TicksOfAnInstructionAddUpToTheStep : Prop := ∀ s : State, s.Inv → ticks (ticksLeft s) s = step s

/-- R263, R264, R266: between its Fetch tick and its running tick an instruction shows PC one past the opcode and every
other register as before, the opcode latched, and the base cycles left counting down. -/
def Obligations.IdleTicksOnlyCountDown : Prop :=
  ∀ (s : State) (k : Nat), s.loaded = true → s.phase = .fetch → 1 ≤ k → k < baseCycles (fetchByte s).1 →
    ticks k s = .next { (fetchByte s).2 with phase := .execute (fetchByte s).1 (baseCycles (fetchByte s).1 - k) }

/-- R266: no tick before the last of an instruction ends at an instruction boundary: it occupies exactly base + penalty
ticks. -/
def Obligations.NoBoundaryBeforeTheLastTick : Prop :=
  ∀ (s t : State) (k : Nat), s.Inv → 1 ≤ k → k < ticksLeft s → ticks k s = .next t → t.phase ≠ .fetch

/-- R269, 30_encoding.md R84, R85, R87, R88 (general knowledge G2, D23, D24; log 20): the base count of every opcode, and
from a boundary an instruction takes 2 to 8 ticks. -/
def Obligations.InstructionsTakeTwoToEightTicks : Prop :=
  -- immediate, accumulator and implied forms, branches
  (∀ op ∈ ([0x69, 0x29, 0x0A, 0x90, 0xB0, 0xF0, 0x30, 0xD0, 0x10, 0x50, 0x70, 0x18, 0xD8, 0x58, 0xB8, 0xC9, 0xE0, 0xC0] ++
          [0xCA, 0x88, 0x49, 0xE8, 0xC8, 0xA9, 0xA2, 0xA0, 0x4A, 0xEA, 0x09, 0x2A, 0x6A, 0xE9, 0x38, 0xF8, 0x78, 0xAA] ++
          [0xA8, 0xBA, 0x8A, 0x9A, 0x98] : List Byte), baseCycles op = 2) ∧
    -- zero page, JMP absolute, pushes
    (∀ op ∈ ([0x65, 0x25, 0x24, 0xC5, 0xE4, 0xC4, 0x45, 0xA5, 0xA6, 0xA4, 0x05, 0xE5, 0x85, 0x86, 0x84] ++
          [0x4C, 0x48, 0x08] : List Byte), baseCycles op = 3) ∧
    -- zero page indexed, absolute, absolute indexed reads, pulls
    (∀ op ∈ ([0x75, 0x35, 0xD5, 0x55, 0xB5, 0xB6, 0xB4, 0x15, 0xF5, 0x95, 0x96, 0x94] ++
          [0x6D, 0x2D, 0x2C, 0xCD, 0xEC, 0xCC, 0x4D, 0xAD, 0xAE, 0xAC, 0x0D, 0xED, 0x8D, 0x8E, 0x8C] ++
          [0x7D, 0x3D, 0xDD, 0x5D, 0xBD, 0xBC, 0x1D, 0xFD, 0x79, 0x39, 0xD9, 0x59, 0xB9, 0xBE, 0x19, 0xF9] ++
          [0x68, 0x28] : List Byte), baseCycles op = 4) ∧
    -- (zp),Y reads, absolute indexed stores, zero-page read-modify-writes, JMP indirect
    (∀ op ∈ ([0x71, 0x31, 0xD1, 0x51, 0xB1, 0x11, 0xF1] ++ [0x9D, 0x99] ++ [0x06, 0xC6, 0xE6, 0x46, 0x26, 0x66] ++
          [0x6C] : List Byte), baseCycles op = 5) ∧
    -- (zp,X), STA (zp),Y, indexed zero-page and absolute read-modify-writes, JSR, RTS, RTI
    (∀ op ∈ ([0x61, 0x21, 0xC1, 0x41, 0xA1, 0x01, 0xE1, 0x81, 0x91] ++ [0x16, 0xD6, 0xF6, 0x56, 0x36, 0x76] ++
          [0x0E, 0xCE, 0xEE, 0x4E, 0x2E, 0x6E] ++ [0x20, 0x60, 0x40] : List Byte), baseCycles op = 6) ∧
    -- absolute,X read-modify-writes, BRK
    (∀ op ∈ ([0x1E, 0xDE, 0xFE, 0x5E, 0x3E, 0x7E, 0x00] : List Byte), baseCycles op = 7) ∧
    (∀ op ∈ undefinedOpcodes, baseCycles op = 2) ∧
    ∀ s : State, s.phase = .fetch →
      2 ≤ baseCycles (fetchByte s).1 ∧ baseCycles (fetchByte s).1 ≤ 7 ∧ 2 ≤ ticksLeft s ∧ ticksLeft s ≤ 8

/-- 40_fetch_decode_addressing.md R118, R111, R112, R115 (D24, log 20): a page crossing costs one tick in ABX, ABY and IZY,
whatever the operation, every one of the 21 that has an operand in memory; and no instruction in any other mode has a penalty,
but the branches (`BranchesTestOneFlag`). -/
def Obligations.PageCrossingsCostOneTick : Prop :=
  (∀ (s : State) (d : Byte) (a : Addr) (f : MemOperand → Instr), f ∈ memoryForms →
        penalty (f (.abx a)) s = (if 255 < a.toNat % 256 + s.x.toNat then 1 else 0) ∧
          penalty (f (.aby a)) s = (if 255 < a.toNat % 256 + s.y.toNat then 1 else 0) ∧
          penalty (f (.izy d)) s = (if 255 < (s.peek (zext d)).toNat + s.y.toNat then 1 else 0)) ∧
    ∀ (s : State) (i : Instr), i.mode ≠ .abx → i.mode ≠ .aby → i.mode ≠ .izy → i.mode ≠ .rel → penalty i s = 0

/-! ### Reset and load -/

/-- 70_reset_and_hazards.md R250, R251, R267: reset assigns A, X, Y, SP, the flags (`P_RESET`, any value), PC from the
vector, the phase, whatever they were, and keeps every backing byte. -/
def Obligations.ResetAssignsTheRegistersAndKeepsMemory : Prop :=
  ∀ (p : Flags) (s : State),
    hardReset p s =
      { a := 0x00
        x := 0x00
        y := 0x00
        sp := 0xFD
        pc := BitVec.ofNat 16 (256 * (s.peek 0xFFFD).toNat + (s.peek 0xFFFC).toNat)
        p := p
        phase := .fetch
        mem := s.mem
        ppu := s.ppu
        loaded := s.loaded }

/-- R254, R255 (the size bounds are D22, log 22): an image of `n` bytes is placed with byte `i` at `0x10000 - n + i`, every
byte below it kept; then reset is applied; the invariant is kept. Any other size is refused. Loaded into a created machine,
it leaves every byte it does not cover at `MEM_INIT`, whatever that is (20_memory.md R68, D4; log 1); a machine not yet loaded
neither steps nor ticks (R252; 93_implementation_defined.md U6; log 3). -/
def Obligations.LoadPlacesTheImageAndResets : Prop :=
  ∀ (p : Flags) (image : List Byte) (s : State), s.Inv →
    (1 ≤ image.length ∧ image.length ≤ 49120 →
      (∃ t, load p image s = .next t ∧ t.Inv ∧
          (∀ (i : Nat) (h : i < image.length), t.peek (BitVec.ofNat 16 (0x10000 - image.length + i)) = image[i]) ∧
          (∀ b : Addr, inPpu b = false → b.toNat < 0x10000 - image.length → t.peek b = s.peek b) ∧
          t = hardReset p { s with mem := t.mem, loaded := true }) ∧
        ∀ (memInit : Nat → Byte) (q : Flags) (pc : Addr),
          ∃ t, load p image (create memInit q pc) = .next t ∧ t.Inv ∧ t.loaded = true ∧
            (∀ (i : Nat) (h : i < image.length), t.peek (BitVec.ofNat 16 (0x10000 - image.length + i)) = image[i]) ∧
            ∀ b : Addr, inPpu b = false → b.toNat < 0x10000 - image.length → t.peek b = memInit (cellKey b)) ∧
      (¬(1 ≤ image.length ∧ image.length ≤ 49120) → load p image s = .refused (.imageSize image.length)) ∧
      (∀ (memInit : Nat → Byte) (pc : Addr), (create memInit p pc).loaded = false) ∧
      (s.loaded = false → step s = .refused .notLoaded ∧ tick s = .refused .notLoaded)
end

