-- ==== Sys2Proof/Laws/State.lean ====
section
/-! SUPPORT. Laws/State.lean: one lemma per field per register update, so that no proof unfolds a record update. -/

namespace Sys2Proof.Machine

variable (s : State)

/-! ### setA -/

@[simp] theorem State.setA_a (v : Byte) : (s.setA v).a = v := rfl
@[simp] theorem State.setA_x (v : Byte) : (s.setA v).x = s.x := rfl
@[simp] theorem State.setA_y (v : Byte) : (s.setA v).y = s.y := rfl
@[simp] theorem State.setA_sp (v : Byte) : (s.setA v).sp = s.sp := rfl
@[simp] theorem State.setA_pc (v : Byte) : (s.setA v).pc = s.pc := rfl
@[simp] theorem State.setA_p (v : Byte) : (s.setA v).p = s.p := rfl
@[simp] theorem State.setA_phase (v : Byte) : (s.setA v).phase = s.phase := rfl
@[simp] theorem State.setA_loaded (v : Byte) : (s.setA v).loaded = s.loaded := rfl
@[simp] theorem State.setA_mem (v : Byte) : (s.setA v).mem = s.mem := rfl
@[simp] theorem State.setA_ppu (v : Byte) : (s.setA v).ppu = s.ppu := rfl

/-! ### setX -/

@[simp] theorem State.setX_a (v : Byte) : (s.setX v).a = s.a := rfl
@[simp] theorem State.setX_x (v : Byte) : (s.setX v).x = v := rfl
@[simp] theorem State.setX_y (v : Byte) : (s.setX v).y = s.y := rfl
@[simp] theorem State.setX_sp (v : Byte) : (s.setX v).sp = s.sp := rfl
@[simp] theorem State.setX_pc (v : Byte) : (s.setX v).pc = s.pc := rfl
@[simp] theorem State.setX_p (v : Byte) : (s.setX v).p = s.p := rfl
@[simp] theorem State.setX_phase (v : Byte) : (s.setX v).phase = s.phase := rfl
@[simp] theorem State.setX_loaded (v : Byte) : (s.setX v).loaded = s.loaded := rfl
@[simp] theorem State.setX_mem (v : Byte) : (s.setX v).mem = s.mem := rfl
@[simp] theorem State.setX_ppu (v : Byte) : (s.setX v).ppu = s.ppu := rfl

/-! ### setY -/

@[simp] theorem State.setY_a (v : Byte) : (s.setY v).a = s.a := rfl
@[simp] theorem State.setY_x (v : Byte) : (s.setY v).x = s.x := rfl
@[simp] theorem State.setY_y (v : Byte) : (s.setY v).y = v := rfl
@[simp] theorem State.setY_sp (v : Byte) : (s.setY v).sp = s.sp := rfl
@[simp] theorem State.setY_pc (v : Byte) : (s.setY v).pc = s.pc := rfl
@[simp] theorem State.setY_p (v : Byte) : (s.setY v).p = s.p := rfl
@[simp] theorem State.setY_phase (v : Byte) : (s.setY v).phase = s.phase := rfl
@[simp] theorem State.setY_loaded (v : Byte) : (s.setY v).loaded = s.loaded := rfl
@[simp] theorem State.setY_mem (v : Byte) : (s.setY v).mem = s.mem := rfl
@[simp] theorem State.setY_ppu (v : Byte) : (s.setY v).ppu = s.ppu := rfl

/-! ### setSp -/

@[simp] theorem State.setSp_a (v : Byte) : (s.setSp v).a = s.a := rfl
@[simp] theorem State.setSp_x (v : Byte) : (s.setSp v).x = s.x := rfl
@[simp] theorem State.setSp_y (v : Byte) : (s.setSp v).y = s.y := rfl
@[simp] theorem State.setSp_sp (v : Byte) : (s.setSp v).sp = v := rfl
@[simp] theorem State.setSp_pc (v : Byte) : (s.setSp v).pc = s.pc := rfl
@[simp] theorem State.setSp_p (v : Byte) : (s.setSp v).p = s.p := rfl
@[simp] theorem State.setSp_phase (v : Byte) : (s.setSp v).phase = s.phase := rfl
@[simp] theorem State.setSp_loaded (v : Byte) : (s.setSp v).loaded = s.loaded := rfl
@[simp] theorem State.setSp_mem (v : Byte) : (s.setSp v).mem = s.mem := rfl
@[simp] theorem State.setSp_ppu (v : Byte) : (s.setSp v).ppu = s.ppu := rfl

/-! ### setPc -/

@[simp] theorem State.setPc_a (v : Addr) : (s.setPc v).a = s.a := rfl
@[simp] theorem State.setPc_x (v : Addr) : (s.setPc v).x = s.x := rfl
@[simp] theorem State.setPc_y (v : Addr) : (s.setPc v).y = s.y := rfl
@[simp] theorem State.setPc_sp (v : Addr) : (s.setPc v).sp = s.sp := rfl
@[simp] theorem State.setPc_pc (v : Addr) : (s.setPc v).pc = v := rfl
@[simp] theorem State.setPc_p (v : Addr) : (s.setPc v).p = s.p := rfl
@[simp] theorem State.setPc_phase (v : Addr) : (s.setPc v).phase = s.phase := rfl
@[simp] theorem State.setPc_loaded (v : Addr) : (s.setPc v).loaded = s.loaded := rfl
@[simp] theorem State.setPc_mem (v : Addr) : (s.setPc v).mem = s.mem := rfl
@[simp] theorem State.setPc_ppu (v : Addr) : (s.setPc v).ppu = s.ppu := rfl

/-! ### setP -/

@[simp] theorem State.setP_a (v : Flags) : (s.setP v).a = s.a := rfl
@[simp] theorem State.setP_x (v : Flags) : (s.setP v).x = s.x := rfl
@[simp] theorem State.setP_y (v : Flags) : (s.setP v).y = s.y := rfl
@[simp] theorem State.setP_sp (v : Flags) : (s.setP v).sp = s.sp := rfl
@[simp] theorem State.setP_pc (v : Flags) : (s.setP v).pc = s.pc := rfl
@[simp] theorem State.setP_p (v : Flags) : (s.setP v).p = v := rfl
@[simp] theorem State.setP_phase (v : Flags) : (s.setP v).phase = s.phase := rfl
@[simp] theorem State.setP_loaded (v : Flags) : (s.setP v).loaded = s.loaded := rfl
@[simp] theorem State.setP_mem (v : Flags) : (s.setP v).mem = s.mem := rfl
@[simp] theorem State.setP_ppu (v : Flags) : (s.setP v).ppu = s.ppu := rfl

/-! ### setPhase -/

@[simp] theorem State.setPhase_a (v : Phase) : (s.setPhase v).a = s.a := rfl
@[simp] theorem State.setPhase_x (v : Phase) : (s.setPhase v).x = s.x := rfl
@[simp] theorem State.setPhase_y (v : Phase) : (s.setPhase v).y = s.y := rfl
@[simp] theorem State.setPhase_sp (v : Phase) : (s.setPhase v).sp = s.sp := rfl
@[simp] theorem State.setPhase_pc (v : Phase) : (s.setPhase v).pc = s.pc := rfl
@[simp] theorem State.setPhase_p (v : Phase) : (s.setPhase v).p = s.p := rfl
@[simp] theorem State.setPhase_phase (v : Phase) : (s.setPhase v).phase = v := rfl
@[simp] theorem State.setPhase_loaded (v : Phase) : (s.setPhase v).loaded = s.loaded := rfl
@[simp] theorem State.setPhase_mem (v : Phase) : (s.setPhase v).mem = s.mem := rfl
@[simp] theorem State.setPhase_ppu (v : Phase) : (s.setPhase v).ppu = s.ppu := rfl

/-! ### setMem -/

@[simp] theorem State.setMem_a (v : Memory) : (s.setMem v).a = s.a := rfl
@[simp] theorem State.setMem_x (v : Memory) : (s.setMem v).x = s.x := rfl
@[simp] theorem State.setMem_y (v : Memory) : (s.setMem v).y = s.y := rfl
@[simp] theorem State.setMem_sp (v : Memory) : (s.setMem v).sp = s.sp := rfl
@[simp] theorem State.setMem_pc (v : Memory) : (s.setMem v).pc = s.pc := rfl
@[simp] theorem State.setMem_p (v : Memory) : (s.setMem v).p = s.p := rfl
@[simp] theorem State.setMem_phase (v : Memory) : (s.setMem v).phase = s.phase := rfl
@[simp] theorem State.setMem_loaded (v : Memory) : (s.setMem v).loaded = s.loaded := rfl
@[simp] theorem State.setMem_mem (v : Memory) : (s.setMem v).mem = v := rfl
@[simp] theorem State.setMem_ppu (v : Memory) : (s.setMem v).ppu = s.ppu := rfl

/-! ### setPpu -/

@[simp] theorem State.setPpu_a (v : List PpuEvent) : (s.setPpu v).a = s.a := rfl
@[simp] theorem State.setPpu_x (v : List PpuEvent) : (s.setPpu v).x = s.x := rfl
@[simp] theorem State.setPpu_y (v : List PpuEvent) : (s.setPpu v).y = s.y := rfl
@[simp] theorem State.setPpu_sp (v : List PpuEvent) : (s.setPpu v).sp = s.sp := rfl
@[simp] theorem State.setPpu_pc (v : List PpuEvent) : (s.setPpu v).pc = s.pc := rfl
@[simp] theorem State.setPpu_p (v : List PpuEvent) : (s.setPpu v).p = s.p := rfl
@[simp] theorem State.setPpu_phase (v : List PpuEvent) : (s.setPpu v).phase = s.phase := rfl
@[simp] theorem State.setPpu_loaded (v : List PpuEvent) : (s.setPpu v).loaded = s.loaded := rfl
@[simp] theorem State.setPpu_mem (v : List PpuEvent) : (s.setPpu v).mem = s.mem := rfl
@[simp] theorem State.setPpu_ppu (v : List PpuEvent) : (s.setPpu v).ppu = v := rfl

/-! ### setNZ -/

@[simp] theorem State.setNZ_a (v : Byte) : (s.setNZ v).a = s.a := rfl
@[simp] theorem State.setNZ_x (v : Byte) : (s.setNZ v).x = s.x := rfl
@[simp] theorem State.setNZ_y (v : Byte) : (s.setNZ v).y = s.y := rfl
@[simp] theorem State.setNZ_sp (v : Byte) : (s.setNZ v).sp = s.sp := rfl
@[simp] theorem State.setNZ_pc (v : Byte) : (s.setNZ v).pc = s.pc := rfl
@[simp] theorem State.setNZ_p (v : Byte) : (s.setNZ v).p = s.p.setNZ v := rfl
@[simp] theorem State.setNZ_phase (v : Byte) : (s.setNZ v).phase = s.phase := rfl
@[simp] theorem State.setNZ_loaded (v : Byte) : (s.setNZ v).loaded = s.loaded := rfl
@[simp] theorem State.setNZ_mem (v : Byte) : (s.setNZ v).mem = s.mem := rfl
@[simp] theorem State.setNZ_ppu (v : Byte) : (s.setNZ v).ppu = s.ppu := rfl

/-! ### The flags -/

variable (p : Flags)

@[simp] theorem Flags.setNZ_n (v : Byte) : (p.setNZ v).n = v.getLsbD 7 := rfl
@[simp] theorem Flags.setNZ_v (v : Byte) : (p.setNZ v).v = p.v := rfl
@[simp] theorem Flags.setNZ_b (v : Byte) : (p.setNZ v).b = p.b := rfl
@[simp] theorem Flags.setNZ_d (v : Byte) : (p.setNZ v).d = p.d := rfl
@[simp] theorem Flags.setNZ_i (v : Byte) : (p.setNZ v).i = p.i := rfl
@[simp] theorem Flags.setNZ_z (v : Byte) : (p.setNZ v).z = (v == 0) := rfl
@[simp] theorem Flags.setNZ_c (v : Byte) : (p.setNZ v).c = p.c := rfl

theorem Flags.afterAdd_frame (a m : Byte) :
    (p.afterAdd a m).b = p.b ∧ (p.afterAdd a m).d = p.d ∧ (p.afterAdd a m).i = p.i := ⟨rfl, rfl, rfl⟩

theorem Flags.afterCompare_frame (r m : Byte) :
    (p.afterCompare r m).v = p.v ∧ (p.afterCompare r m).b = p.b ∧ (p.afterCompare r m).d = p.d ∧
      (p.afterCompare r m).i = p.i := ⟨rfl, rfl, rfl, rfl⟩

theorem Flags.afterShift_frame (r : Byte) (c : Bool) :
    (p.afterShift r c).v = p.v ∧ (p.afterShift r c).b = p.b ∧ (p.afterShift r c).d = p.d ∧
      (p.afterShift r c).i = p.i := ⟨rfl, rfl, rfl, rfl⟩

end Sys2Proof.Machine
end

