-- ==== Sys2Proof/Laws/Memory.lean ====
section
/-! SUPPORT. Laws/Memory.lean: the backing bytes: a read after a write, and the canonical form that every write keeps. -/

namespace Sys2Proof.Machine

/-! ### The canonical form -/

theorem Memory.wfFrom_cons (lo k : Nat) (v : Byte) (m : Memory) :
    Memory.wfFrom lo ((k, v) :: m) = true ↔
      lo ≤ k ∧ isCell k = true ∧ v ≠ Config.memInit k ∧ Memory.wfFrom (k + 1) m = true := by
  simp [Memory.wfFrom, and_assoc]

theorem Memory.wfFrom_mono {lo lo' : Nat} {m : Memory} (h : lo' ≤ lo) (hm : Memory.wfFrom lo m = true) :
    Memory.wfFrom lo' m = true := by
  cases m with
  | nil => rfl
  | cons c m =>
    obtain ⟨k, v⟩ := c
    rw [Memory.wfFrom_cons] at hm ⊢
    exact ⟨h.trans hm.1, hm.2⟩

/-- Below the first key of the canonical form every key is unlisted. -/
theorem Memory.read_below {lo k : Nat} {m : Memory} (hm : Memory.wfFrom lo m = true) (hk : k < lo) :
    m.read k = Config.memInit k := by
  induction m generalizing lo with
  | nil => rfl
  | cons c m ih =>
    obtain ⟨j, w⟩ := c
    rw [Memory.wfFrom_cons] at hm
    have hj : j ≠ k := by omega
    simp only [Memory.read, if_neg hj]
    exact ih hm.2.2.2 (by omega)

/-- A write keeps the canonical form. -/
theorem Memory.write_wfFrom {lo k : Nat} {m : Memory} (v : Byte) (hm : Memory.wfFrom lo m = true) (hlo : lo ≤ k)
    (hk : isCell k = true) : Memory.wfFrom lo (m.write k v) = true := by
  induction m generalizing lo with
  | nil =>
    unfold Memory.write
    split
    · rfl
    · exact (Memory.wfFrom_cons ..).2 ⟨hlo, hk, ‹_›, rfl⟩
  | cons c m ih =>
    obtain ⟨j, w⟩ := c
    have hc := hm
    rw [Memory.wfFrom_cons] at hc
    obtain ⟨h1, h2, h3, h4⟩ := hc
    unfold Memory.write
    split
    · exact (Memory.wfFrom_cons ..).2 ⟨h1, h2, h3, ih h4 (by omega)⟩
    · split
      · subst j
        split
        · exact Memory.wfFrom_mono (by omega) h4
        · exact (Memory.wfFrom_cons ..).2 ⟨hlo, hk, ‹_›, h4⟩
      · split
        · exact hm
        · refine (Memory.wfFrom_cons ..).2 ⟨hlo, hk, ‹_›, ?_⟩
          exact (Memory.wfFrom_cons ..).2 ⟨by omega, h2, h3, h4⟩

/-- A write to a backing byte keeps the canonical form of memory. -/
theorem Memory.write_wf {k : Nat} {m : Memory} (v : Byte) (hm : m.wf = true) (hk : isCell k = true) :
    (m.write k v).wf = true := Memory.write_wfFrom v hm (Nat.zero_le k) hk

/-! ### Read after write -/

theorem Memory.read_write_same_from {lo k : Nat} {m : Memory} (v : Byte) (hm : Memory.wfFrom lo m = true) :
    (m.write k v).read k = v := by
  induction m generalizing lo with
  | nil =>
    unfold Memory.write
    split <;> simp_all [Memory.read]
  | cons c m ih =>
    obtain ⟨j, w⟩ := c
    have hc := hm
    rw [Memory.wfFrom_cons] at hc
    obtain ⟨h1, h2, h3, h4⟩ := hc
    unfold Memory.write
    split
    · have hj : j ≠ k := by omega
      simp only [Memory.read, if_neg hj]
      exact ih h4
    · split
      · subst j
        split
        · rw [Memory.read_below h4 (by omega)]
          exact (Eq.symm ‹_›)
        · simp [Memory.read]
      · have hj : j ≠ k := by omega
        split
        · simp only [Memory.read, if_neg hj]
          rw [Memory.read_below h4 (by omega)]
          exact (Eq.symm ‹_›)
        · simp [Memory.read]

/-- A read after a write to the same key gives the byte written. -/
theorem Memory.read_write_same {k : Nat} {m : Memory} (v : Byte) (hm : m.wf = true) : (m.write k v).read k = v :=
  Memory.read_write_same_from v hm

/-- A write leaves every other key alone. -/
theorem Memory.read_write_other {j k : Nat} (m : Memory) (v : Byte) (h : j ≠ k) : (m.write k v).read j = m.read j := by
  induction m with
  | nil =>
    unfold Memory.write
    split
    · rfl
    · simp [Memory.read, Ne.symm h]
  | cons c m ih =>
    obtain ⟨i, w⟩ := c
    unfold Memory.write
    split
    · simp only [Memory.read, ih]
    · split
      · subst i
        split <;> simp [Memory.read, Ne.symm h]
      · split
        · rfl
        · simp [Memory.read, Ne.symm h]

/-- Writing a byte twice is writing it once. -/
theorem Memory.write_write {lo k : Nat} {m : Memory} (v : Byte) (hm : Memory.wfFrom lo m = true) :
    (m.write k v).write k v = m.write k v := by
  induction m generalizing lo with
  | nil => by_cases hv : v = Config.memInit k <;> simp [Memory.write, hv]
  | cons c m ih =>
    obtain ⟨j, w⟩ := c
    have hc := hm
    rw [Memory.wfFrom_cons] at hc
    obtain ⟨h1, h2, h3, h4⟩ := hc
    unfold Memory.write
    by_cases hjk : j < k
    · simp only [if_pos hjk, Memory.write, ih h4]
    · by_cases he : j = k
      · subst j
        by_cases hv : v = Config.memInit k
        · simp only [Nat.lt_irrefl, if_false, if_true, if_pos hv]
          cases m with
          | nil => simp [Memory.write, hv]
          | cons d m =>
            obtain ⟨i, u⟩ := d
            rw [Memory.wfFrom_cons] at h4
            have : ¬ i < k := by omega
            have : i ≠ k := by omega
            simp [Memory.write, *]
        · simp [Memory.write, hv]
      · by_cases hv : v = Config.memInit k <;> simp [Memory.write, hjk, he, hv]

/-! ### The address decoder -/

/-- Every address outside the PPU window selects a backing byte (20_memory.md R53). -/
theorem isCell_cellKey {a : Addr} (h : inPpu a = false) : isCell (cellKey a) = true := by
  have := a.isLt
  simp only [inPpu, Bool.and_eq_false_iff, decide_eq_false_iff_not] at h
  unfold cellKey isCell
  split <;> simp only [Bool.or_eq_true, Bool.and_eq_true, decide_eq_true_eq] <;> omega

end Sys2Proof.Machine
end

