-- ==== Sys2Proof/Laws/Bus.lean ====
section
/-! SUPPORT. Laws/Bus.lean: everything the bus operations, the fetch and the stack primitives can do, said once. -/

namespace Sys2Proof.Machine

variable (s : State)

/-! ### Reads -/

/-- Outside the PPU window a read gives the byte held and changes nothing. -/
theorem busRead_storage {a : Addr} (h : inPpu a = false) : busRead a s = (s.peek a, s) := by
  simp [busRead, h]

/-- In the PPU window a read is answered by the free value and recorded. -/
theorem busRead_ppu {a : Addr} (h : inPpu a = true) :
    busRead a s = (Config.ppuRead s.ppu (ppuRegister a), s.setPpu (s.ppu ++ [.read (ppuRegister a)])) := by
  simp [busRead, h]

/-- A read changes at most the record of the port. -/
theorem busRead_state (a : Addr) : (busRead a s).2 = s.setPpu (busRead a s).2.ppu := by
  unfold busRead
  split <;> rfl

@[simp] theorem busRead_a (a : Addr) : (busRead a s).2.a = s.a := by rw [busRead_state]; rfl
@[simp] theorem busRead_x (a : Addr) : (busRead a s).2.x = s.x := by rw [busRead_state]; rfl
@[simp] theorem busRead_y (a : Addr) : (busRead a s).2.y = s.y := by rw [busRead_state]; rfl
@[simp] theorem busRead_sp (a : Addr) : (busRead a s).2.sp = s.sp := by rw [busRead_state]; rfl
@[simp] theorem busRead_pc (a : Addr) : (busRead a s).2.pc = s.pc := by rw [busRead_state]; rfl
@[simp] theorem busRead_p (a : Addr) : (busRead a s).2.p = s.p := by rw [busRead_state]; rfl
@[simp] theorem busRead_phase (a : Addr) : (busRead a s).2.phase = s.phase := by rw [busRead_state]; rfl
@[simp] theorem busRead_loaded (a : Addr) : (busRead a s).2.loaded = s.loaded := by rw [busRead_state]; rfl
@[simp] theorem busRead_mem (a : Addr) : (busRead a s).2.mem = s.mem := by rw [busRead_state]; rfl

@[simp] theorem busRead_peek (a b : Addr) : (busRead a s).2.peek b = s.peek b := by simp [State.peek]

@[simp] theorem fetchByte_a : (fetchByte s).2.a = s.a := by simp [fetchByte]
@[simp] theorem fetchByte_x : (fetchByte s).2.x = s.x := by simp [fetchByte]
@[simp] theorem fetchByte_y : (fetchByte s).2.y = s.y := by simp [fetchByte]
@[simp] theorem fetchByte_sp : (fetchByte s).2.sp = s.sp := by simp [fetchByte]
@[simp] theorem fetchByte_pc : (fetchByte s).2.pc = s.pc + 1 := by simp [fetchByte]
@[simp] theorem fetchByte_p : (fetchByte s).2.p = s.p := by simp [fetchByte]
@[simp] theorem fetchByte_phase : (fetchByte s).2.phase = s.phase := by simp [fetchByte]
@[simp] theorem fetchByte_loaded : (fetchByte s).2.loaded = s.loaded := by simp [fetchByte]
@[simp] theorem fetchByte_mem : (fetchByte s).2.mem = s.mem := by simp [fetchByte]

/-- A fetch outside the PPU window gives the byte at PC and only advances PC. -/
theorem fetchByte_storage (h : inPpu s.pc = false) : fetchByte s = (s.peek s.pc, s.setPc (s.pc + 1)) := by
  simp [fetchByte, busRead_storage s h]

/-! ### Writes -/

theorem busWrite_storage {a : Addr} (v : Byte) (h : inPpu a = false) :
    busWrite a v s = s.setMem (s.mem.write (cellKey a) v) := by simp [busWrite, h]

theorem busWrite_ppu {a : Addr} (v : Byte) (h : inPpu a = true) :
    busWrite a v s = s.setPpu (s.ppu ++ [.write (ppuRegister a) v]) := by simp [busWrite, h]

@[simp] theorem busWrite_a (a : Addr) (v : Byte) : (busWrite a v s).a = s.a := by unfold busWrite; split <;> rfl
@[simp] theorem busWrite_x (a : Addr) (v : Byte) : (busWrite a v s).x = s.x := by unfold busWrite; split <;> rfl
@[simp] theorem busWrite_y (a : Addr) (v : Byte) : (busWrite a v s).y = s.y := by unfold busWrite; split <;> rfl
@[simp] theorem busWrite_sp (a : Addr) (v : Byte) : (busWrite a v s).sp = s.sp := by unfold busWrite; split <;> rfl
@[simp] theorem busWrite_pc (a : Addr) (v : Byte) : (busWrite a v s).pc = s.pc := by unfold busWrite; split <;> rfl
@[simp] theorem busWrite_p (a : Addr) (v : Byte) : (busWrite a v s).p = s.p := by unfold busWrite; split <;> rfl
@[simp] theorem busWrite_phase (a : Addr) (v : Byte) : (busWrite a v s).phase = s.phase := by unfold busWrite; split <;> rfl
@[simp] theorem busWrite_loaded (a : Addr) (v : Byte) : (busWrite a v s).loaded = s.loaded := by unfold busWrite; split <;> rfl

/-- A write keeps the canonical form of memory. -/
theorem busWrite_wf (a : Addr) (v : Byte) (h : s.mem.wf = true) : (busWrite a v s).mem.wf = true := by
  by_cases ha : inPpu a = true
  · rw [busWrite_ppu s v ha]; exact h
  · rw [Bool.not_eq_true] at ha
    rw [busWrite_storage s v ha]
    exact Memory.write_wf v h (isCell_cellKey ha)

/-- The byte written is the byte read back, at every address of the same backing byte. -/
theorem busWrite_peek_same {a b : Addr} (v : Byte) (h : s.mem.wf = true) (ha : inPpu a = false)
    (hb : cellKey b = cellKey a) : (busWrite a v s).peek b = v := by
  rw [busWrite_storage s v ha, State.peek, hb]
  exact Memory.read_write_same v h

/-- A write leaves every other backing byte alone; a write to the PPU window leaves all of them alone. -/
theorem busWrite_peek_other {a b : Addr} (v : Byte) (h : inPpu a = true ∨ cellKey b ≠ cellKey a) :
    (busWrite a v s).peek b = s.peek b := by
  by_cases ha : inPpu a = true
  · rw [busWrite_ppu s v ha]; rfl
  · rw [Bool.not_eq_true] at ha
    rw [busWrite_storage s v ha]
    exact Memory.read_write_other _ _ (h.resolve_left (by simp [ha]))

@[simp] theorem busWrite_ppu_storage {a : Addr} (v : Byte) (h : inPpu a = false) : (busWrite a v s).ppu = s.ppu := by
  rw [busWrite_storage s v h]; rfl

/-- A write changes memory and the record of the port, and nothing else. -/
theorem busWrite_state (a : Addr) (v : Byte) :
    busWrite a v s = { s with mem := (busWrite a v s).mem, ppu := portAfterWrite a v s.ppu } := by
  unfold busWrite portAfterWrite
  split <;> rfl

/-- Two addresses outside the PPU window select the same backing byte exactly when the address decoder gives one key. -/
theorem sameByte_eq {a b : Addr} : sameByte b a = decide (cellKey b = cellKey a) := by
  have ha := a.isLt
  have hb := b.isLt
  unfold sameByte cellKey
  simp only [BitVec.toNat_eq]
  split <;> rw [decide_eq_decide] <;> split <;> split <;> omega

/-- A write changes at most the one byte of its address. -/
theorem busWrite_storedOnly (a : Addr) (v : Byte) (h : s.mem.wf = true) : StoredOnly a v s (busWrite a v s) := by
  intro b _
  rw [sameByte_eq]
  by_cases ha : inPpu a = false
  · by_cases hk : cellKey b = cellKey a
    · simp [ha, hk, busWrite_peek_same s v h ha hk]
    · simp [hk, busWrite_peek_other s v (.inr hk)]
  · simp [ha, busWrite_peek_other s v (.inl (by simpa using ha))]

/-! ### The zero page and the stack page are RAM -/

theorem zext_toNat (b : Byte) : (zext b).toNat = b.toNat := by
  have := b.isLt
  simp [zext]
  omega

@[simp] theorem zext_not_ppu (b : Byte) : inPpu (zext b) = false := by
  have := b.isLt
  simp [inPpu, zext_toNat]
  omega

@[simp] theorem cellKey_zext (b : Byte) : cellKey (zext b) = b.toNat := by
  have := b.isLt
  unfold cellKey
  rw [zext_toNat]
  split <;> omega

theorem stackAddr_toNat (b : Byte) : (stackAddr b).toNat = 0x100 + b.toNat := by
  have := b.isLt
  simp only [stackAddr, BitVec.toNat_add, zext_toNat]
  show (256 + b.toNat) % 2 ^ 16 = _
  omega

@[simp] theorem stackAddr_not_ppu (b : Byte) : inPpu (stackAddr b) = false := by
  have := b.isLt
  simp only [inPpu, stackAddr_toNat, Bool.and_eq_false_iff, decide_eq_false_iff_not]
  omega

@[simp] theorem cellKey_stackAddr (b : Byte) : cellKey (stackAddr b) = 0x100 + b.toNat := by
  have := b.isLt
  unfold cellKey
  rw [stackAddr_toNat]
  split <;> omega

/-- A read of the zero page, which the resolver makes for its pointers, is the byte held there and no port event. -/
theorem busRead_zext (b : Byte) : busRead (zext b) s = (s.peek (zext b), s) := busRead_storage s (by simp)

/-- A read of the stack page, which a pull makes, is the byte held there and no port event. -/
theorem busRead_stackAddr (b : Byte) : busRead (stackAddr b) s = (s.peek (stackAddr b), s) := busRead_storage s (by simp)

/-! ### The stack primitives -/

theorem push_eq (v : Byte) : push v s = (s.setMem (s.mem.write (0x100 + s.sp.toNat) v)).setSp (s.sp - 1) := by
  simp [push, busWrite_storage]

@[simp] theorem push_a (v : Byte) : (push v s).a = s.a := by simp [push_eq]
@[simp] theorem push_x (v : Byte) : (push v s).x = s.x := by simp [push_eq]
@[simp] theorem push_y (v : Byte) : (push v s).y = s.y := by simp [push_eq]
@[simp] theorem push_pc (v : Byte) : (push v s).pc = s.pc := by simp [push_eq]
@[simp] theorem push_p (v : Byte) : (push v s).p = s.p := by simp [push_eq]
@[simp] theorem push_phase (v : Byte) : (push v s).phase = s.phase := by simp [push_eq]
@[simp] theorem push_loaded (v : Byte) : (push v s).loaded = s.loaded := by simp [push_eq]
@[simp] theorem push_ppu (v : Byte) : (push v s).ppu = s.ppu := by simp [push_eq]
@[simp] theorem push_sp (v : Byte) : (push v s).sp = s.sp - 1 := by simp [push_eq]

@[simp] theorem push16_a (w : Addr) : (push16 w s).a = s.a := by simp [push16, push_eq]
@[simp] theorem push16_x (w : Addr) : (push16 w s).x = s.x := by simp [push16, push_eq]
@[simp] theorem push16_y (w : Addr) : (push16 w s).y = s.y := by simp [push16, push_eq]
@[simp] theorem push16_pc (w : Addr) : (push16 w s).pc = s.pc := by simp [push16, push_eq]
@[simp] theorem push16_p (w : Addr) : (push16 w s).p = s.p := by simp [push16, push_eq]
@[simp] theorem push16_phase (w : Addr) : (push16 w s).phase = s.phase := by simp [push16, push_eq]
@[simp] theorem push16_loaded (w : Addr) : (push16 w s).loaded = s.loaded := by simp [push16, push_eq]
@[simp] theorem push16_ppu (w : Addr) : (push16 w s).ppu = s.ppu := by simp [push16, push_eq]
@[simp] theorem push16_sp (w : Addr) : (push16 w s).sp = s.sp - 1 - 1 := by simp [push16, push_eq]

@[simp] theorem pull_a : (pull s).2.a = s.a := rfl
@[simp] theorem pull_x : (pull s).2.x = s.x := rfl
@[simp] theorem pull_y : (pull s).2.y = s.y := rfl
@[simp] theorem pull_pc : (pull s).2.pc = s.pc := rfl
@[simp] theorem pull_p : (pull s).2.p = s.p := rfl
@[simp] theorem pull_phase : (pull s).2.phase = s.phase := rfl
@[simp] theorem pull_loaded : (pull s).2.loaded = s.loaded := rfl
@[simp] theorem pull_mem : (pull s).2.mem = s.mem := rfl
@[simp] theorem pull_ppu : (pull s).2.ppu = s.ppu := rfl
@[simp] theorem pull_sp : (pull s).2.sp = s.sp + 1 := rfl

@[simp] theorem pull16_a : (pull16 s).2.a = s.a := rfl
@[simp] theorem pull16_x : (pull16 s).2.x = s.x := rfl
@[simp] theorem pull16_y : (pull16 s).2.y = s.y := rfl
@[simp] theorem pull16_pc : (pull16 s).2.pc = s.pc := rfl
@[simp] theorem pull16_p : (pull16 s).2.p = s.p := rfl
@[simp] theorem pull16_phase : (pull16 s).2.phase = s.phase := rfl
@[simp] theorem pull16_loaded : (pull16 s).2.loaded = s.loaded := rfl
@[simp] theorem pull16_mem : (pull16 s).2.mem = s.mem := rfl
@[simp] theorem pull16_ppu : (pull16 s).2.ppu = s.ppu := rfl
@[simp] theorem pull16_sp : (pull16 s).2.sp = s.sp + 1 + 1 := rfl

theorem push_wf (v : Byte) (h : s.mem.wf = true) : (push v s).mem.wf = true := busWrite_wf s _ v h

theorem push16_wf (w : Addr) (h : s.mem.wf = true) : (push16 w s).mem.wf = true := push_wf _ _ (push_wf s _ h)

/-- The byte just pushed is at the address SP designated. -/
theorem push_peek_same (v : Byte) (h : s.mem.wf = true) : (push v s).peek (stackAddr s.sp) = v :=
  busWrite_peek_same s v h (by simp) rfl

/-- A push leaves every other backing byte alone. -/
theorem push_peek_other (v : Byte) {b : Addr} (h : cellKey b ≠ 0x100 + s.sp.toNat) : (push v s).peek b = s.peek b :=
  busWrite_peek_other s v (.inr (by simpa using h))

/-- A pull after a push gives the byte back and restores SP. -/
theorem pull_push (v : Byte) (h : s.mem.wf = true) : (pull (push v s)).1 = v ∧ (pull (push v s)).2.sp = s.sp := by
  have hsp : s.sp - 1 + 1 = s.sp := by simp
  refine ⟨?_, by simp⟩
  show (push v s).peek (stackAddr ((push v s).sp + 1)) = v
  rw [push_sp, hsp]
  exact push_peek_same s v h

/-! ### The trap -/

/-- Everything taking the trap does: A, X, Y, the phase, the port and the load stay, SP falls by 3, B is set and no other flag
changes, PC is loaded from the vector. -/
theorem takeBreak_spec :
    (takeBreak s).a = s.a ∧ (takeBreak s).x = s.x ∧ (takeBreak s).y = s.y ∧ (takeBreak s).sp = s.sp - 1 - 1 - 1 ∧
      (takeBreak s).p = { s.p with b := true } ∧ (takeBreak s).phase = s.phase ∧ (takeBreak s).ppu = s.ppu ∧
      (takeBreak s).loaded = s.loaded ∧
      (takeBreak s).mem = (push s.p.toByte (push16 s.pc s)).mem ∧
      (takeBreak s).pc = (push s.p.toByte (push16 s.pc s)).vector breakVector := by
  refine ⟨?_, ?_, ?_, ?_, ?_, ?_, ?_, ?_, rfl, rfl⟩ <;> simp [takeBreak]

theorem takeBreak_wf (h : s.mem.wf = true) : (takeBreak s).mem.wf = true := push_wf _ _ (push16_wf s _ h)

/-- Everything returning from the trap does. -/
theorem returnFromBreak_spec :
    (returnFromBreak s).a = s.a ∧ (returnFromBreak s).x = s.x ∧ (returnFromBreak s).y = s.y ∧
      (returnFromBreak s).sp = s.sp + 1 + 1 + 1 ∧ (returnFromBreak s).p = Flags.ofByte (s.peek (stackAddr (s.sp + 1))) ∧
      (returnFromBreak s).loaded = s.loaded ∧ (returnFromBreak s).phase = s.phase ∧ (returnFromBreak s).mem = s.mem ∧ (returnFromBreak s).ppu = s.ppu ∧
      (returnFromBreak s).pc = word (s.peek (stackAddr (s.sp + 1 + 1 + 1))) (s.peek (stackAddr (s.sp + 1 + 1))) :=
  ⟨rfl, rfl, rfl, rfl, rfl, rfl, rfl, rfl, rfl, rfl⟩

end Sys2Proof.Machine
end

