-- ==== Sys2Proof/Laws/Boot.lean ====
section
/-! SUPPORT. Laws/Boot.lean: the memory of a created machine, and placing bytes in memory, for a load or for the next step: the
canonical form is kept and every other byte stays. -/

namespace Sys2Proof.Machine

/-! ### Creating -/

theorem memoryFrom_wfFrom (memInit : Nat → Byte) (k n : Nat) : Memory.wfFrom k (memoryFrom memInit k n) = true := by
  induction n generalizing k with
  | zero => rfl
  | succ n ih =>
    unfold memoryFrom
    split
    · exact (Memory.wfFrom_cons ..).2 ⟨le_refl k, ‹_ ∧ _›.1, ‹_ ∧ _›.2, ih (k + 1)⟩
    · exact Memory.wfFrom_mono (Nat.le_succ k) (ih (k + 1))

theorem memoryFrom_read (memInit : Nat → Byte) (k n j : Nat) (hj : isCell j = true) (hk : k ≤ j) (hn : j < k + n) :
    (memoryFrom memInit k n).read j = memInit j := by
  induction n generalizing k with
  | zero => omega
  | succ n ih =>
    by_cases hjk : j = k
    · subst j
      unfold memoryFrom
      split
      · simp [Memory.read]
      · rw [Memory.read_below (memoryFrom_wfFrom memInit (k + 1) n) (Nat.lt_succ_self k)]
        simp_all
    · have hne : k ≠ j := Ne.symm hjk
      unfold memoryFrom
      split
      · simp only [Memory.read, if_neg hne]
        exact ih (k + 1) (by omega) (by omega)
      · exact ih (k + 1) (by omega) (by omega)

/-- The memory of a created machine has its canonical form. -/
theorem initialMemory_wf (memInit : Nat → Byte) : (initialMemory memInit).wf = true := memoryFrom_wfFrom memInit 0 _

/-- Every backing byte of a created machine is the one `MEM_INIT` gives it (20_memory.md R68). -/
theorem initialMemory_read (memInit : Nat → Byte) {j : Nat} (hj : isCell j = true) :
    (initialMemory memInit).read j = memInit j := by
  refine memoryFrom_read memInit 0 _ j hj (Nat.zero_le j) ?_
  simp only [isCell, Bool.or_eq_true, Bool.and_eq_true, decide_eq_true_eq] at hj
  omega

theorem memoryFrom_memInit (k n : Nat) : memoryFrom Config.memInit k n = [] := by
  induction n generalizing k with
  | zero => rfl
  | succ n ih =>
    unfold memoryFrom
    simp [ih]

/-- The state after reset is the created machine in which every open parameter is zero. -/
theorem create_zero : create Config.memInit State.reset.p 0x0000 = State.reset := by
  simp only [create, initialMemory, memoryFrom_memInit]
  rfl

/-! ### Placing -/

/-- The address of the byte after the first, counted from the first. -/
theorem succ_add_ofNat (a : Addr) (k : Nat) : a + 1 + BitVec.ofNat 16 k = a + BitVec.ofNat 16 (k + 1) := by
  rw [BitVec.add_assoc, Nat.add_comm k 1, BitVec.ofNat_add]
  rfl

/-- Bytes placed outside the PPU window keep the canonical form of memory. -/
theorem placeBytes_wf {a : Addr} {m : Memory} (bs : List Byte) (hm : m.wf = true)
    (h : ∀ k < bs.length, inPpu (a + BitVec.ofNat 16 k) = false) : (placeBytes a bs m).wf = true := by
  induction bs generalizing a m with
  | nil => exact hm
  | cons b bs ih =>
    have h0 : inPpu a = false := by simpa using h 0 (by simp)
    refine ih (Memory.write_wf b hm (isCell_cellKey h0)) fun k hk => ?_
    rw [succ_add_ofNat]
    exact h (k + 1) (by simpa using hk)

/-- Placing bytes leaves every other backing byte alone. -/
theorem placeBytes_read_other {a : Addr} {j : Nat} (m : Memory) (bs : List Byte)
    (h : ∀ k < bs.length, j ≠ cellKey (a + BitVec.ofNat 16 k)) : (placeBytes a bs m).read j = m.read j := by
  induction bs generalizing a m with
  | nil => rfl
  | cons b bs ih =>
    have h0 : j ≠ cellKey a := by simpa using h 0 (by simp)
    refine (ih (m.write (cellKey a) b) fun k hk => ?_).trans (Memory.read_write_other m b h0)
    rw [succ_add_ofNat]
    exact h (k + 1) (by simpa using hk)

/-- Where an instruction is placed, its three addresses are outside the PPU window. -/
theorem instructionPlace_storage (s : State) :
    ∀ k < 3, inPpu (instructionPlace s + BitVec.ofNat 16 k) = false := by
  intro k hk
  unfold instructionPlace
  split
  · revert k
    decide
  · rename_i h
    simp only [Bool.or_eq_true, not_or, Bool.not_eq_true] at h
    obtain rfl | rfl | rfl : k = 0 ∨ k = 1 ∨ k = 2 := by omega
    · simpa using h.1.1
    · exact h.1.2
    · exact h.2

/-- Placing an instruction for the next step keeps the canonical form of memory. -/
theorem placeInstruction_wf (s : State) {bs : List Byte} (hs : s.mem.wf = true) (h : bs.length ≤ 3) :
    (placeInstruction bs s).mem.wf = true :=
  placeBytes_wf bs hs fun k hk => instructionPlace_storage s k (by omega)

end Sys2Proof.Machine
end

