-- ==== Sys2Proof/Laws/Encoding.lean ====
section
/-! SUPPORT. Laws/Encoding.lean: the opcode map read both ways: what decodes is an instruction, its mode and its cell depend
on the opcode byte alone. -/

namespace Sys2Proof

theorem word_lo8_hi8 (a : Addr) : word (hi8 a) (lo8 a) = a := by
  apply BitVec.eq_of_getLsbD_eq
  intro i hi
  simp only [word, hi8, lo8, BitVec.getLsbD_append, BitVec.getLsbD_extractLsb']
  by_cases h : i < 8
  · simp [h]
  · have h8 : i - 8 < 8 := by omega
    have hs : 8 + (i - 8) = i := by omega
    simp [h, h8, hs]

theorem lo8_word (h l : Byte) : lo8 (word h l) = l := by
  apply BitVec.eq_of_getLsbD_eq
  intro i hi
  simp only [word, lo8, BitVec.getLsbD_extractLsb', BitVec.getLsbD_append]
  simp [hi]

theorem hi8_word (h l : Byte) : hi8 (word h l) = h := by
  apply BitVec.eq_of_getLsbD_eq
  intro i hi
  have : ¬ 8 + i < 8 := by omega
  simp only [word, hi8, BitVec.getLsbD_extractLsb', BitVec.getLsbD_append]
  simp [hi]

/-- The mode of what an opcode decodes to depends on the opcode alone (30_encoding.md R82). -/
theorem decodeOpcode_mode (op b1 b2 : Byte) : (decodeOpcode op b1 b2).mode = (decodeOpcode op 0 0).mode := by
  unfold decodeOpcode
  split <;> rfl

/-- The cell of what an opcode decodes to depends on the opcode alone (R81, R87). -/
theorem decodeOpcode_cell_const (op b1 b2 : Byte) : (decodeOpcode op b1 b2).cell = (decodeOpcode op 0 0).cell := by
  unfold decodeOpcode
  split <;> rfl

/-- The two maps of R85 agree: the cell of what an opcode decodes to holds that opcode. -/
theorem decodeOpcode_cell_opcode : ∀ op : Byte, (decodeOpcode op 0 0).cell.map Prod.fst = some op := by decide

/-- What an opcode decodes to is an instruction of the hardware. -/
theorem decodeOpcode_wf_const (op b1 b2 : Byte) : (decodeOpcode op b1 b2).wf = (decodeOpcode op 0 0).wf := by
  unfold decodeOpcode
  split <;> rfl

/-- An opcode has at most two operand bytes (R80). -/
theorem operandCount_le (op : Byte) : operandCount op ≤ 2 := by
  unfold operandCount
  cases (decodeOpcode op 0 0).mode <;> decide

/-- The operand bytes of what an opcode decodes to are the bytes its mode reads, in order (R80, R83). -/
theorem decodeOpcode_operandBytes (op b1 b2 : Byte) :
    (decodeOpcode op b1 b2).operandBytes = [b1, b2].take (operandCount op) := by
  have habs : [lo8 (word b2 b1), hi8 (word b2 b1)] = [b1, b2] := by rw [lo8_word, hi8_word]
  rw [show operandCount op = (decodeOpcode op b1 b2).mode.operandBytes from by rw [decodeOpcode_mode]; rfl]
  unfold decodeOpcode
  split <;> first | rfl | exact habs

/-- The encoding of what an opcode decodes to is the opcode and the operand bytes its mode reads. -/
theorem encode_decodeOpcode (op b1 b2 : Byte) :
    encode (decodeOpcode op b1 b2) = op :: [b1, b2].take (operandCount op) := by
  have hc := decodeOpcode_cell_opcode op
  rw [← decodeOpcode_cell_const op b1 b2] at hc
  unfold encode
  rw [decodeOpcode_operandBytes]
  cases h : (decodeOpcode op b1 b2).cell with
  | none => simp [h] at hc
  | some c =>
    rw [h] at hc
    obtain ⟨o, n⟩ := c
    cases hc
    rfl

/-! ### The decoder, by the number of operand bytes -/

theorem decode_of_zero {op : Byte} (h : operandCount op = 0) (rest : List Byte) :
    decode (op :: rest) = .ok (decodeOpcode op 0 0, rest) := by simp [decode, h]

theorem decode_of_one {op : Byte} (h : operandCount op = 1) (b1 : Byte) (rest : List Byte) :
    decode (op :: b1 :: rest) = .ok (decodeOpcode op b1 0, rest) := by simp [decode, h]

theorem decode_of_two {op : Byte} (h : operandCount op = 2) (b1 b2 : Byte) (rest : List Byte) :
    decode (op :: b1 :: b2 :: rest) = .ok (decodeOpcode op b1 b2, rest) := by simp [decode, h]

/-- An opcode without its operand bytes does not decode. -/
theorem decode_truncated {op : Byte} {rest : List Byte} (h : rest.length < operandCount op) :
    decode (op :: rest) = .error (.truncated op) := by
  have hle := operandCount_le op
  obtain hn | hn | hn : operandCount op = 0 ∨ operandCount op = 1 ∨ operandCount op = 2 := by omega
  · omega
  · match rest with
    | [] => simp [decode, hn]
    | _ :: _ => simp [hn] at h
  · match rest with
    | [] => simp [decode, hn]
    | [_] => simp [decode, hn]
    | _ :: _ :: _ => simp [hn] at h

/-- An instruction has as many operand bytes as its mode says. -/
theorem Instr.operandBytes_length (i : Instr) : i.operandBytes.length = i.mode.operandBytes := by
  have hm (m : MemOperand) : m.bytes.length = m.mode.operandBytes := by cases m <;> rfl
  have hr (o : ReadOperand) : o.bytes.length = o.mode.operandBytes := by
    cases o with
    | imm v => rfl
    | mem m => exact hm m
  have hs (o : ShiftOperand) : o.bytes.length = o.mode.operandBytes := by
    cases o with
    | acc => rfl
    | mem m => exact hm m
  cases i <;> first | rfl | exact hm _ | exact hr _ | exact hs _

end Sys2Proof
end

