-- ==== Sys2Proof/Laws/Operands.lean ====
section
/-! SUPPORT. Laws/Operands.lean: everything the shared shapes of the families can do, said once: the data read, load,
transfer, combine, compare, modify, shift, branch. -/

namespace Sys2Proof.Machine

variable (s : State)

/-! ### The data read -/

/-- A data read changes at most the record of the port. -/
theorem readOperand_state (o : ReadOperand) : (readOperand o s).2 = s.setPpu (readOperand o s).2.ppu := by
  cases o with
  | imm v => rfl
  | mem m => exact busRead_state s _

@[simp] theorem readOperand_a (o : ReadOperand) : (readOperand o s).2.a = s.a := by rw [readOperand_state]; rfl
@[simp] theorem readOperand_x (o : ReadOperand) : (readOperand o s).2.x = s.x := by rw [readOperand_state]; rfl
@[simp] theorem readOperand_y (o : ReadOperand) : (readOperand o s).2.y = s.y := by rw [readOperand_state]; rfl
@[simp] theorem readOperand_sp (o : ReadOperand) : (readOperand o s).2.sp = s.sp := by rw [readOperand_state]; rfl
@[simp] theorem readOperand_pc (o : ReadOperand) : (readOperand o s).2.pc = s.pc := by rw [readOperand_state]; rfl
@[simp] theorem readOperand_p (o : ReadOperand) : (readOperand o s).2.p = s.p := by rw [readOperand_state]; rfl
@[simp] theorem readOperand_phase (o : ReadOperand) : (readOperand o s).2.phase = s.phase := by rw [readOperand_state]; rfl
@[simp] theorem readOperand_loaded (o : ReadOperand) : (readOperand o s).2.loaded = s.loaded := by rw [readOperand_state]; rfl
@[simp] theorem readOperand_mem (o : ReadOperand) : (readOperand o s).2.mem = s.mem := by rw [readOperand_state]; rfl
@[simp] theorem indirectTarget_a (p : Addr) : (indirectTarget p s).2.a = s.a := by simp [indirectTarget]
@[simp] theorem indirectTarget_x (p : Addr) : (indirectTarget p s).2.x = s.x := by simp [indirectTarget]
@[simp] theorem indirectTarget_y (p : Addr) : (indirectTarget p s).2.y = s.y := by simp [indirectTarget]
@[simp] theorem indirectTarget_sp (p : Addr) : (indirectTarget p s).2.sp = s.sp := by simp [indirectTarget]
@[simp] theorem indirectTarget_p (p : Addr) : (indirectTarget p s).2.p = s.p := by simp [indirectTarget]
@[simp] theorem indirectTarget_phase (p : Addr) : (indirectTarget p s).2.phase = s.phase := by simp [indirectTarget]
@[simp] theorem indirectTarget_loaded (p : Addr) : (indirectTarget p s).2.loaded = s.loaded := by simp [indirectTarget]
@[simp] theorem indirectTarget_mem (p : Addr) : (indirectTarget p s).2.mem = s.mem := by simp [indirectTarget]
@[simp] theorem indirectTarget_pc (p : Addr) : (indirectTarget p s).2.pc = s.pc := by simp [indirectTarget]

/-! ### The shapes of the families -/

/-- N and Z as numbers are N and Z as bits. -/
theorem signZero_eq (v : Byte) (p : Flags) : signZero v p = p.setNZ v := by
  have h : ∀ v : Byte, decide (128 ≤ v.toNat) = v.getLsbD 7 ∧ decide (v.toNat = 0) = (v == 0) := by decide
  simp [signZero, Flags.setNZ, (h v).1, (h v).2]

theorem loadRegister_setA (o : ReadOperand) :
    loadRegister State.setA o s =
      { s with a := (readOperand o s).1, p := s.p.setNZ (readOperand o s).1, ppu := (readOperand o s).2.ppu } := by
  simp only [loadRegister]
  rw [readOperand_state]
  rfl

theorem loadRegister_setX (o : ReadOperand) :
    loadRegister State.setX o s =
      { s with x := (readOperand o s).1, p := s.p.setNZ (readOperand o s).1, ppu := (readOperand o s).2.ppu } := by
  simp only [loadRegister]
  rw [readOperand_state]
  rfl

theorem loadRegister_setY (o : ReadOperand) :
    loadRegister State.setY o s =
      { s with y := (readOperand o s).1, p := s.p.setNZ (readOperand o s).1, ppu := (readOperand o s).2.ppu } := by
  simp only [loadRegister]
  rw [readOperand_state]
  rfl

theorem combineWithA_state (f : Byte → Byte → Byte) (o : ReadOperand) :
    combineWithA f o s =
      { s with
        a := f s.a (readOperand o s).1
        p := s.p.setNZ (f s.a (readOperand o s).1)
        ppu := (readOperand o s).2.ppu } := by
  simp only [combineWithA]
  rw [readOperand_state]
  rfl

theorem compareWith_state (reg : Byte) (o : ReadOperand) :
    compareWith reg o s =
      { s with p := s.p.afterCompare reg (readOperand o s).1, ppu := (readOperand o s).2.ppu } := by
  simp only [compareWith]
  rw [readOperand_state]
  rfl

theorem addToA_state (m : Byte) : addToA m s = { s with a := addResult s.a m s.p.c, p := s.p.afterAdd s.a m } := rfl

/-! ### Read-modify-write -/

/-- A read-modify-write changes N, Z, memory and the record of the port. -/
theorem modifyMemory_state (f : Byte → Byte) (m : MemOperand) :
    modifyMemory f m s =
      { s with
        p := s.p.setNZ (f (busRead (effectiveAddr m s) s).1)
        mem := (modifyMemory f m s).mem
        ppu :=
          portAfterWrite (effectiveAddr m s) (f (busRead (effectiveAddr m s) s).1)
            (busRead (effectiveAddr m s) s).2.ppu } := by
  simp only [modifyMemory]
  rw [busWrite_state, busRead_state]
  rfl


@[simp] theorem modifyMemory_a (f : Byte → Byte) (m : MemOperand) : (modifyMemory f m s).a = s.a := by simp [modifyMemory]
@[simp] theorem modifyMemory_x (f : Byte → Byte) (m : MemOperand) : (modifyMemory f m s).x = s.x := by simp [modifyMemory]
@[simp] theorem modifyMemory_y (f : Byte → Byte) (m : MemOperand) : (modifyMemory f m s).y = s.y := by simp [modifyMemory]
@[simp] theorem modifyMemory_sp (f : Byte → Byte) (m : MemOperand) : (modifyMemory f m s).sp = s.sp := by simp [modifyMemory]
@[simp] theorem modifyMemory_pc (f : Byte → Byte) (m : MemOperand) : (modifyMemory f m s).pc = s.pc := by simp [modifyMemory]
@[simp] theorem modifyMemory_phase (f : Byte → Byte) (m : MemOperand) : (modifyMemory f m s).phase = s.phase := by simp [modifyMemory]
@[simp] theorem modifyMemory_loaded (f : Byte → Byte) (m : MemOperand) : (modifyMemory f m s).loaded = s.loaded := by simp [modifyMemory]
@[simp] theorem shiftOperand_x (op : Byte → Bool → Byte × Bool) (o : ShiftOperand) :
    (shiftOperand op o s).x = s.x := by cases o <;> simp [shiftOperand]
@[simp] theorem shiftOperand_y (op : Byte → Bool → Byte × Bool) (o : ShiftOperand) :
    (shiftOperand op o s).y = s.y := by cases o <;> simp [shiftOperand]
@[simp] theorem shiftOperand_sp (op : Byte → Bool → Byte × Bool) (o : ShiftOperand) :
    (shiftOperand op o s).sp = s.sp := by cases o <;> simp [shiftOperand]
@[simp] theorem shiftOperand_pc (op : Byte → Bool → Byte × Bool) (o : ShiftOperand) :
    (shiftOperand op o s).pc = s.pc := by cases o <;> simp [shiftOperand]
@[simp] theorem shiftOperand_phase (op : Byte → Bool → Byte × Bool) (o : ShiftOperand) :
    (shiftOperand op o s).phase = s.phase := by cases o <;> simp [shiftOperand]
@[simp] theorem shiftOperand_loaded (op : Byte → Bool → Byte × Bool) (o : ShiftOperand) :
    (shiftOperand op o s).loaded = s.loaded := by cases o <;> simp [shiftOperand]
@[simp] theorem shiftOperand_mem_a (op : Byte → Bool → Byte × Bool) (m : MemOperand) :
    (shiftOperand op (.mem m) s).a = s.a := by simp [shiftOperand]
@[simp] theorem branch_a (c : Bool) (d : Byte) : (branch c d s).a = s.a := by unfold branch; split <;> rfl
@[simp] theorem branch_x (c : Bool) (d : Byte) : (branch c d s).x = s.x := by unfold branch; split <;> rfl
@[simp] theorem branch_y (c : Bool) (d : Byte) : (branch c d s).y = s.y := by unfold branch; split <;> rfl
@[simp] theorem branch_sp (c : Bool) (d : Byte) : (branch c d s).sp = s.sp := by unfold branch; split <;> rfl
@[simp] theorem branch_p (c : Bool) (d : Byte) : (branch c d s).p = s.p := by unfold branch; split <;> rfl
@[simp] theorem branch_phase (c : Bool) (d : Byte) : (branch c d s).phase = s.phase := by unfold branch; split <;> rfl
@[simp] theorem branch_loaded (c : Bool) (d : Byte) : (branch c d s).loaded = s.loaded := by unfold branch; split <;> rfl
@[simp] theorem branch_mem (c : Bool) (d : Byte) : (branch c d s).mem = s.mem := by unfold branch; split <;> rfl
@[simp] theorem branch_ppu (c : Bool) (d : Byte) : (branch c d s).ppu = s.ppu := by unfold branch; split <;> rfl

theorem modifyMemory_wf (f : Byte → Byte) (m : MemOperand) (h : s.mem.wf = true) : (modifyMemory f m s).mem.wf = true :=
  busWrite_wf _ _ _ (by simpa using h)

theorem shiftOperand_wf (op : Byte → Bool → Byte × Bool) (o : ShiftOperand) (h : s.mem.wf = true) :
    (shiftOperand op o s).mem.wf = true := by
  cases o with
  | acc => exact h
  | mem m => exact busWrite_wf _ _ _ (by simpa using h)

/-! ### The flags are no input of the address decoder, the resolver or the bus -/

theorem effectiveAddr_setP (m : MemOperand) (p : Flags) : effectiveAddr m (s.setP p) = effectiveAddr m s := by cases m <;> rfl

theorem busRead_setP (a : Addr) (p : Flags) : busRead a (s.setP p) = ((busRead a s).1, (busRead a s).2.setP p) := by
  unfold busRead
  split <;> rfl

theorem busWrite_setP (a : Addr) (v : Byte) (p : Flags) : busWrite a v (s.setP p) = (busWrite a v s).setP p := by
  unfold busWrite
  split <;> rfl

theorem readOperand_setP (o : ReadOperand) (p : Flags) :
    readOperand o (s.setP p) = ((readOperand o s).1, (readOperand o s).2.setP p) := by
  cases o with
  | imm v => rfl
  | mem m => simp only [readOperand, effectiveAddr_setP, busRead_setP]

theorem push_setP (v : Byte) (p : Flags) : push v (s.setP p) = (push v s).setP p := by simp only [push_eq]; rfl

/-- A branch sets PC to its target if its condition holds and changes nothing else. -/
theorem branch_eq (c : Bool) (d : Byte) : branch c d s = s.setPc (if c then s.pc + sext d else s.pc) := by
  cases c <;> rfl

end Sys2Proof.Machine
end

