-- ==== Sys2Proof/Laws/Cycle.lean ====
section
/-! SUPPORT. Laws/Cycle.lean: what the fetch, the penalties and the base counts can do, said once: the fetch changes PC and
the record of the port alone, the phase is no input of them (10_state.md R38), and their bounds. -/

namespace Sys2Proof.Machine

variable (s : State)

/-! ### Before a load -/

theorem whenLoaded_eq (run : State → Result) (h : s.loaded = true) : whenLoaded run s = run s := by simp [whenLoaded, h]

theorem whenLoaded_refused (run : State → Result) (h : s.loaded = false) : whenLoaded run s = .refused .notLoaded := by
  simp [whenLoaded, h]

/-- What answers a next state was loaded. -/
theorem whenLoaded_next {run : State → Result} {t : State} (h : whenLoaded run s = .next t) :
    s.loaded = true ∧ run s = .next t := by
  unfold whenLoaded at h
  split at h
  · exact ⟨‹_›, h⟩
  · cases h

/-! ### The fetch -/

/-- A fetch changes PC and the record of the port, and nothing else. -/
theorem fetchByte_state : (fetchByte s).2 = { s with pc := s.pc + 1, ppu := (fetchByte s).2.ppu } := by
  unfold fetchByte busRead
  split <;> rfl

/-- Fetching the operand bytes changes PC and the record of the port, and nothing else. -/
theorem fetchOperands_state (op : Byte) :
    (fetchOperands op s).2 =
      { s with pc := s.pc + BitVec.ofNat 16 (operandCount op), ppu := (fetchOperands op s).2.ppu } := by
  have hle := operandCount_le op
  obtain h | h | h : operandCount op = 0 ∨ operandCount op = 1 ∨ operandCount op = 2 := by omega
  · simp [fetchOperands, h]
  · simp only [fetchOperands, h]
    exact fetchByte_state s
  · have h2 : s.pc + 1 + 1 = s.pc + BitVec.ofNat 16 2 := by rw [BitVec.add_assoc]; rfl
    simp only [fetchOperands, h]
    rw [fetchByte_state, ← h2, fetchByte_state s]

/-- The instruction fetched has the mode of its opcode. -/
theorem fetchOperands_mode (op : Byte) : (fetchOperands op s).1.mode = (decodeOpcode op 0 0).mode := by
  unfold fetchOperands
  split
  · rfl
  · exact decodeOpcode_mode _ _ _
  · exact decodeOpcode_mode _ _ _

/-! ### The phase is no input -/

theorem busRead_setPhase (a : Addr) (h : Phase) :
    busRead a (s.setPhase h) = ((busRead a s).1, (busRead a s).2.setPhase h) := by
  unfold busRead
  split <;> rfl

theorem fetchByte_setPhase (h : Phase) : fetchByte (s.setPhase h) = ((fetchByte s).1, (fetchByte s).2.setPhase h) := by
  simp only [fetchByte, State.setPhase_pc, busRead_setPhase]
  rfl

theorem fetchOperands_setPhase (op : Byte) (h : Phase) :
    fetchOperands op (s.setPhase h) = ((fetchOperands op s).1, (fetchOperands op s).2.setPhase h) := by
  unfold fetchOperands
  split <;> simp only [fetchByte_setPhase]

theorem penalty_setPhase (i : Instr) (h : Phase) : penalty i (s.setPhase h) = penalty i s := by cases i <;> rfl

/-! ### Bounds -/

theorem pagePenalty_le (m : MemOperand) : pagePenalty m s ≤ 1 := Bool.toNat_le _

theorem readPenalty_le (o : ReadOperand) : readPenalty o s ≤ 1 := by
  cases o with
  | imm v => exact Nat.zero_le 1
  | mem m => exact pagePenalty_le s m

theorem shiftPenalty_le (o : ShiftOperand) : shiftPenalty o s ≤ 1 := by
  cases o with
  | acc => exact Nat.zero_le 1
  | mem m => exact pagePenalty_le s m

theorem branchPenalty_le (c : Bool) (d : Byte) : branchPenalty c d s ≤ 2 := by
  have h := Bool.toNat_le (crossed s.pc (branchTarget d s))
  unfold branchPenalty
  split <;> omega

/-- A penalty is 0, 1 or 2 ticks (70_reset_and_hazards.md R262). -/
theorem penalty_le (i : Instr) : penalty i s ≤ 2 := by
  cases i <;>
    first
    | exact Nat.zero_le 2
    | exact (readPenalty_le s _).trans (by decide)
    | exact (shiftPenalty_le s _).trans (by decide)
    | exact (pagePenalty_le s _).trans (by decide)
    | exact branchPenalty_le s _ _

/-- Every opcode has 2 to 7 base cycles (30_encoding.md R84, R85, R88). -/
theorem baseCycles_bounds : ∀ op : Byte, 2 ≤ baseCycles op ∧ baseCycles op ≤ 7 := by decide

/-- A branch has 2 base cycles (44_branch_jump.md R165). -/
theorem baseCycles_rel : ∀ op : Byte, (decodeOpcode op 0 0).mode = .rel → baseCycles op = 2 := by decide

/-- Only a branch has a penalty of 2. -/
theorem penalty_le_one (i : Instr) (h : i.mode ≠ .rel) : penalty i s ≤ 1 := by
  cases i <;>
    first
    | exact absurd rfl h
    | exact Nat.zero_le 1
    | exact readPenalty_le s _
    | exact shiftPenalty_le s _
    | exact pagePenalty_le s _

end Sys2Proof.Machine
end

