-- ==== Sys2Proof/Laws/PerInstr.lean ====
section
/-! SUPPORT. Laws/PerInstr.lean: statements about every instruction as syntax, one lemma per constructor. EncodedLength: an
instruction's bytes are as many as its mode says (30_encoding.md R82, R90), or none for a term that is no instruction. -/

namespace Sys2Proof.Laws.EncodedLength

/-- The encoding of `i` is one opcode byte and the operand bytes of its mode, or empty. -/
def Statement (i : Instr) : Prop := encode i = [] ∨ (encode i).length = i.length

theorem of_cell (i : Instr) : Statement i := by
  unfold Statement encode
  split
  · right
    rw [List.length_cons, Instr.operandBytes_length, Instr.length, Nat.add_comm]
  · exact .inl rfl

theorem adc (o : ReadOperand) : Statement (.adc o) := of_cell _
theorem sbc (o : ReadOperand) : Statement (.sbc o) := of_cell _
theorem cmp (o : ReadOperand) : Statement (.cmp o) := of_cell _
theorem cpx (o : ReadOperand) : Statement (.cpx o) := of_cell _
theorem cpy (o : ReadOperand) : Statement (.cpy o) := of_cell _
theorem and (o : ReadOperand) : Statement (.and o) := of_cell _
theorem ora (o : ReadOperand) : Statement (.ora o) := of_cell _
theorem eor (o : ReadOperand) : Statement (.eor o) := of_cell _
theorem bit (m : MemOperand) : Statement (.bit m) := of_cell _
theorem inc (m : MemOperand) : Statement (.inc m) := of_cell _
theorem dec (m : MemOperand) : Statement (.dec m) := of_cell _
theorem inx : Statement (.inx) := of_cell _
theorem iny : Statement (.iny) := of_cell _
theorem dex : Statement (.dex) := of_cell _
theorem dey : Statement (.dey) := of_cell _
theorem asl (o : ShiftOperand) : Statement (.asl o) := of_cell _
theorem lsr (o : ShiftOperand) : Statement (.lsr o) := of_cell _
theorem rol (o : ShiftOperand) : Statement (.rol o) := of_cell _
theorem ror (o : ShiftOperand) : Statement (.ror o) := of_cell _
theorem bcc (d : Byte) : Statement (.bcc d) := of_cell _
theorem bcs (d : Byte) : Statement (.bcs d) := of_cell _
theorem beq (d : Byte) : Statement (.beq d) := of_cell _
theorem bmi (d : Byte) : Statement (.bmi d) := of_cell _
theorem bne (d : Byte) : Statement (.bne d) := of_cell _
theorem bpl (d : Byte) : Statement (.bpl d) := of_cell _
theorem bvc (d : Byte) : Statement (.bvc d) := of_cell _
theorem bvs (d : Byte) : Statement (.bvs d) := of_cell _
theorem jmp (a : Addr) : Statement (.jmp a) := of_cell _
theorem jmpInd (p : Addr) : Statement (.jmpInd p) := of_cell _
theorem jsr (a : Addr) : Statement (.jsr a) := of_cell _
theorem rts : Statement (.rts) := of_cell _
theorem pha : Statement (.pha) := of_cell _
theorem php : Statement (.php) := of_cell _
theorem pla : Statement (.pla) := of_cell _
theorem plp : Statement (.plp) := of_cell _
theorem brk : Statement (.brk) := of_cell _
theorem rti : Statement (.rti) := of_cell _
theorem clc : Statement (.clc) := of_cell _
theorem sec : Statement (.sec) := of_cell _
theorem cli : Statement (.cli) := of_cell _
theorem sei : Statement (.sei) := of_cell _
theorem cld : Statement (.cld) := of_cell _
theorem sed : Statement (.sed) := of_cell _
theorem clv : Statement (.clv) := of_cell _
theorem nop : Statement (.nop) := of_cell _
theorem und (op : Byte) : Statement (.und op) := of_cell _
theorem lda (o : ReadOperand) : Statement (.lda o) := of_cell _
theorem ldx (o : ReadOperand) : Statement (.ldx o) := of_cell _
theorem ldy (o : ReadOperand) : Statement (.ldy o) := of_cell _
theorem sta (m : MemOperand) : Statement (.sta m) := of_cell _
theorem stx (m : MemOperand) : Statement (.stx m) := of_cell _
theorem sty (m : MemOperand) : Statement (.sty m) := of_cell _
theorem tax : Statement (.tax) := of_cell _
theorem tay : Statement (.tay) := of_cell _
theorem txa : Statement (.txa) := of_cell _
theorem tya : Statement (.tya) := of_cell _
theorem tsx : Statement (.tsx) := of_cell _
theorem txs : Statement (.txs) := of_cell _

end Sys2Proof.Laws.EncodedLength
end

