-- ==== Sys2Proof/Tests/Slice0.lean ====
section
/-! SUPPORT. Tests/Slice0.lean: the model's own tests: ill-formed terms refused, words from the opcode map decoded, one step per
instruction with the numbers of the spec's vectors (95_test_vectors.md, 96_test_vectors_control.md), reset, load and ticks;
and for every statement with hypotheses a witness that meets them. -/

namespace Sys2Proof.Tests

open Sys2Proof.Machine

/-- The loaded machine with bytes of code at an address and PC there. -/
def code (pc : Addr) (bytes : List Byte) (s : State) : State :=
  { s with pc := pc, mem := placeBytes pc bytes s.mem, loaded := true }

/-- The state with bytes written on the bus. -/
def poke (cells : List (Addr × Byte)) (s : State) : State := cells.foldl (fun t c => busWrite c.1 c.2 t) s

/-- A view of the state after one step. -/
def after {α : Type} (f : State → α) (s : State) : Option α := (nextState (step s)).map f

/-! ### WellFormed: one term refused for each check -/

/-- No accumulator operation has ZPY (R130 to R132, R140 to R142, R210). -/
theorem test_wf_accumulator_operations_have_no_zpy :
    (Instr.adc (.mem (.zpy 0))).wf = false ∧ (Instr.sbc (.mem (.zpy 0))).wf = false ∧
      (Instr.cmp (.mem (.zpy 0))).wf = false ∧ (Instr.and (.mem (.zpy 0))).wf = false ∧
      (Instr.ora (.mem (.zpy 0))).wf = false ∧ (Instr.eor (.mem (.zpy 0))).wf = false ∧
      (Instr.lda (.mem (.zpy 0))).wf = false := by decide

/-- CPX and CPY have no indexed form (R133, R134). -/
theorem test_wf_index_compares_have_no_indexed_form :
    (Instr.cpx (.mem (.zpx 0))).wf = false ∧ (Instr.cpy (.mem (.abx 0))).wf = false := by decide

/-- BIT, INC, DEC and the shifts have no (zp),Y or ABY form (R143 to R145, R156 to R159). -/
theorem test_wf_bit_incdec_shifts :
    (Instr.bit (.zpx 0)).wf = false ∧ (Instr.inc (.aby 0)).wf = false ∧ (Instr.dec (.izy 0)).wf = false ∧
      (Instr.asl (.mem (.aby 0))).wf = false ∧ (Instr.lsr (.mem (.zpy 0))).wf = false ∧
      (Instr.rol (.mem (.izx 0))).wf = false ∧ (Instr.ror (.mem (.izy 0))).wf = false := by decide

/-- LDX and STX are indexed by Y alone, LDY and STY by X alone, STA has no ZPY form (R211 to R215). -/
theorem test_wf_loads_and_stores :
    (Instr.ldx (.mem (.zpx 0))).wf = false ∧ (Instr.ldy (.mem (.zpy 0))).wf = false ∧ (Instr.sta (.zpy 0)).wf = false ∧
      (Instr.stx (.zpx 0)).wf = false ∧ (Instr.sty (.zpy 0)).wf = false ∧ (Instr.stx (.aby 0)).wf = false := by decide

/-- NOP's byte is no undefined opcode, 0x80 is one (R88). -/
theorem test_wf_und : (Instr.und 0xEA).wf = false ∧ (Instr.und 0x80).wf = true := by decide

/-! ### Decode: a word of the opcode map for every constructor (R85, R88) -/

theorem test_decode_arithmetic_compare :
    decode [0x7D, 0x34, 0x12] = .ok (.adc (.mem (.abx 0x1234)), []) ∧
      decode [0xF1, 0x34] = .ok (.sbc (.mem (.izy 0x34)), []) ∧
      decode [0xC1, 0x34] = .ok (.cmp (.mem (.izx 0x34)), []) ∧
      decode [0xEC, 0x34, 0x12] = .ok (.cpx (.mem (.abs 0x1234)), []) ∧
      decode [0xC0, 0x34] = .ok (.cpy (.imm 0x34), []) := by decide

theorem test_decode_logic_incdec :
    decode [0x35, 0x34] = .ok (.and (.mem (.zpx 0x34)), []) ∧
      decode [0x19, 0x34, 0x12] = .ok (.ora (.mem (.aby 0x1234)), []) ∧
      decode [0x4D, 0x34, 0x12] = .ok (.eor (.mem (.abs 0x1234)), []) ∧
      decode [0x2C, 0x34, 0x12] = .ok (.bit (.abs 0x1234), []) ∧
      decode [0xFE, 0x34, 0x12] = .ok (.inc (.abx 0x1234), []) ∧
      decode [0xD6, 0x34] = .ok (.dec (.zpx 0x34), []) ∧
      decode [0xE8] = .ok (.inx, []) ∧
      decode [0xC8] = .ok (.iny, []) ∧
      decode [0xCA] = .ok (.dex, []) ∧
      decode [0x88] = .ok (.dey, []) := by decide

theorem test_decode_shift_rotate :
    decode [0x0A] = .ok (.asl .acc, []) ∧
      decode [0x46, 0x34] = .ok (.lsr (.mem (.zp 0x34)), []) ∧
      decode [0x3E, 0x34, 0x12] = .ok (.rol (.mem (.abx 0x1234)), []) ∧
      decode [0x6E, 0x34, 0x12] = .ok (.ror (.mem (.abs 0x1234)), []) := by decide

theorem test_decode_branch :
    decode [0x90, 0x34] = .ok (.bcc 0x34, []) ∧
      decode [0xB0, 0x34] = .ok (.bcs 0x34, []) ∧
      decode [0xF0, 0x34] = .ok (.beq 0x34, []) ∧
      decode [0x30, 0x34] = .ok (.bmi 0x34, []) ∧
      decode [0xD0, 0x34] = .ok (.bne 0x34, []) ∧
      decode [0x10, 0x34] = .ok (.bpl 0x34, []) ∧
      decode [0x50, 0x34] = .ok (.bvc 0x34, []) ∧
      decode [0x70, 0x34] = .ok (.bvs 0x34, []) := by decide

theorem test_decode_jump :
    decode [0x4C, 0x34, 0x12] = .ok (.jmp 0x1234, []) ∧
      decode [0x6C, 0x34, 0x12] = .ok (.jmpInd 0x1234, []) ∧
      decode [0x20, 0x34, 0x12] = .ok (.jsr 0x1234, []) ∧
      decode [0x60] = .ok (.rts, []) := by decide

theorem test_decode_stack_system :
    decode [0x48] = .ok (.pha, []) ∧
      decode [0x08] = .ok (.php, []) ∧
      decode [0x68] = .ok (.pla, []) ∧
      decode [0x28] = .ok (.plp, []) ∧
      decode [0x00] = .ok (.brk, []) ∧
      decode [0x40] = .ok (.rti, []) ∧
      decode [0xEA] = .ok (.nop, []) ∧
      decode [0x02] = .ok (.und 0x02, []) := by decide

theorem test_decode_flags :
    decode [0x18] = .ok (.clc, []) ∧
      decode [0x38] = .ok (.sec, []) ∧
      decode [0x58] = .ok (.cli, []) ∧
      decode [0x78] = .ok (.sei, []) ∧
      decode [0xD8] = .ok (.cld, []) ∧
      decode [0xF8] = .ok (.sed, []) ∧
      decode [0xB8] = .ok (.clv, []) := by decide

theorem test_decode_load_store :
    decode [0xB1, 0x34] = .ok (.lda (.mem (.izy 0x34)), []) ∧
      decode [0xBE, 0x34, 0x12] = .ok (.ldx (.mem (.aby 0x1234)), []) ∧
      decode [0xBC, 0x34, 0x12] = .ok (.ldy (.mem (.abx 0x1234)), []) ∧
      decode [0x81, 0x34] = .ok (.sta (.izx 0x34), []) ∧
      decode [0x96, 0x34] = .ok (.stx (.zpy 0x34), []) ∧
      decode [0x94, 0x34] = .ok (.sty (.zpx 0x34), []) := by decide

theorem test_decode_transfer :
    decode [0xAA] = .ok (.tax, []) ∧
      decode [0xA8] = .ok (.tay, []) ∧
      decode [0x8A] = .ok (.txa, []) ∧
      decode [0x98] = .ok (.tya, []) ∧
      decode [0xBA] = .ok (.tsx, []) ∧
      decode [0x9A] = .ok (.txs, []) := by decide

/-- R81, R84: an instruction whose bytes end too early is refused by name. -/
theorem test_decode_refuses :
    decode [] = .error .noBytes ∧ decode [0xAD, 0x34] = .error (.truncated 0xAD) ∧
      decode [0xF0] = .error (.truncated 0xF0) := by decide

/-- The bits of spec/opcode_table.json: the first byte lowest. -/
theorem test_table_word :
    decodeTableWord 24 0x1234AD = some (.lda (.mem (.abs 0x1234))) ∧ decodeTableWord 8 0xA9 = some (.lda (.imm 0)) := by
  decide

/-! ### One step of every instruction -/

/-- V-ADC-1, S4. -/
theorem test_adc_signed_overflow :
    after (fun t => (t.a, t.p.toByte)) (code 0x8000 [0x69, 0x50] { State.reset with a := 0x50 }) =
      some (0xA0, 0xE0) := by decide

/-- V-ADC-7. -/
theorem test_adc_ignores_decimal :
    after (fun t => (t.a, t.p.toByte)) (code 0x8000 [0x69, 0x19] { State.reset with a := 0x19, p := Flags.ofByte 0x28 }) =
      some (0x32, 0x28) := by decide

/-- V-SBC-2. -/
theorem test_sbc_borrow :
    after (fun t => (t.a, t.p.toByte)) (code 0x8000 [0xE9, 0x50] { State.reset with a := 0x50 }) =
      some (0xFF, 0xA0) := by decide

/-- V-SBC-4. -/
theorem test_sbc_signed_overflow :
    after (fun t => (t.a, t.p.toByte)) (code 0x8000 [0xE9, 0x01] { State.reset with a := 0x80, p := Flags.ofByte 0x21 }) =
      some (0x7F, 0x61) := by decide

/-- V-CMP-4. -/
theorem test_cmp_unsigned_keeps_v :
    after (fun t => (t.a, t.p.toByte)) (code 0x8000 [0xC9, 0x01] { State.reset with a := 0x80, p := Flags.ofByte 0x60 }) =
      some (0x80, 0x61) := by decide

/-- V-CPX-2. -/
theorem test_cpx_less :
    after (fun t => t.p.toByte) (code 0x8000 [0xE4, 0x10] (poke [(0x0010, 0x02)] { State.reset with x := 0x01 })) =
      some 0xA0 := by decide

/-- V-CPY-1. -/
theorem test_cpy_less :
    after (fun t => t.p.toByte) (code 0x8000 [0xC0, 0x10] { State.reset with y := 0x0F }) =
      some 0xA0 := by decide

/-- V-AND-2. -/
theorem test_and_keeps_c_v :
    after (fun t => (t.a, t.p.toByte)) (code 0x8000 [0x29, 0x0F] { State.reset with a := 0xF0, p := Flags.ofByte 0x61 }) =
      some (0x00, 0x63) := by decide

/-- V-ORA-1. -/
theorem test_ora :
    after (fun t => (t.a, t.p.toByte)) (code 0x8000 [0x09, 0x80] { State.reset with a := 0x01 }) =
      some (0x81, 0xA0) := by decide

/-- V-EOR-1. -/
theorem test_eor :
    after (fun t => (t.a, t.p.toByte)) (code 0x8000 [0x49, 0xFF] { State.reset with a := 0x0F }) =
      some (0xF0, 0xA0) := by decide

/-- V-BIT-1. -/
theorem test_bit_flags_from_operand :
    after (fun t => (t.a, t.p.toByte)) (code 0x8000 [0x24, 0x10] (poke [(0x0010, 0x40)] { State.reset with a := 0x01 })) =
      some (0x01, 0x62) := by decide

/-- V-INC-1. -/
theorem test_inc_wraps_keeps_c :
    after (fun t => (t.peek 0x10, t.p.toByte)) (code 0x8000 [0xE6, 0x10] (poke [(0x0010, 0xFF)] { State.reset with p := Flags.ofByte 0x21 })) =
      some (0x00, 0x23) := by decide

/-- V-DEC-2. -/
theorem test_dec_wraps :
    after (fun t => (t.peek 0x10, t.p.toByte)) (code 0x8000 [0xC6, 0x10] State.reset) =
      some (0xFF, 0xA0) := by decide

/-- V-INX. -/
theorem test_inx_wraps :
    after (fun t => (t.x, t.p.toByte)) (code 0x8000 [0xE8] { State.reset with x := 0xFF }) =
      some (0x00, 0x22) := by decide

/-- V-INY. -/
theorem test_iny :
    after (fun t => (t.y, t.p.toByte)) (code 0x8000 [0xC8] { State.reset with y := 0x7F }) =
      some (0x80, 0xA0) := by decide

/-- V-DEX. -/
theorem test_dex :
    after (fun t => (t.x, t.p.toByte)) (code 0x8000 [0xCA] { State.reset with x := 0x01 }) =
      some (0x00, 0x22) := by decide

/-- V-DEY. -/
theorem test_dey_wraps :
    after (fun t => (t.y, t.p.toByte)) (code 0x8000 [0x88] State.reset) =
      some (0xFF, 0xA0) := by decide

/-- V-ASL-2. -/
theorem test_asl_accumulator :
    after (fun t => (t.a, t.p.toByte)) (code 0x8000 [0x0A] { State.reset with a := 0x80 }) =
      some (0x00, 0x23) := by decide

/-- V-ASL-3. -/
theorem test_asl_memory_not_a :
    after (fun t => (t.peek 0x10, t.a, t.p.toByte)) (code 0x8000 [0x06, 0x10] (poke [(0x0010, 0x80)] { State.reset with a := 0xFF })) =
      some (0x00, 0xFF, 0x23) := by decide

/-- V-LSR-1. -/
theorem test_lsr_accumulator :
    after (fun t => (t.a, t.p.toByte)) (code 0x8000 [0x4A] { State.reset with a := 0x01, p := Flags.ofByte 0xA0 }) =
      some (0x00, 0x23) := by decide

/-- V-LSR-2. -/
theorem test_lsr_memory :
    after (fun t => (t.peek 0x10, t.p.toByte)) (code 0x8000 [0x46, 0x10] (poke [(0x0010, 0x03)] State.reset)) =
      some (0x01, 0x21) := by decide

/-- V-ROL-1. -/
theorem test_rol_carry_in :
    after (fun t => (t.a, t.p.toByte)) (code 0x8000 [0x2A] { State.reset with a := 0x40, p := Flags.ofByte 0x21 }) =
      some (0x81, 0xA0) := by decide

/-- V-ROL-3. -/
theorem test_rol_memory :
    after (fun t => (t.peek 0x200, t.p.toByte)) (code 0x8000 [0x2E, 0x00, 0x02] (poke [(0x0200, 0xFF)] { State.reset with p := Flags.ofByte 0x21 })) =
      some (0xFF, 0xA1) := by decide

/-- V-ROR-1. -/
theorem test_ror_carry_in :
    after (fun t => (t.a, t.p.toByte)) (code 0x8000 [0x6A] { State.reset with a := 0x01, p := Flags.ofByte 0x21 }) =
      some (0x80, 0xA1) := by decide

/-- V-ROR-3. -/
theorem test_ror_memory_indexed :
    after (fun t => (t.peek 0x11, t.p.toByte)) (code 0x8000 [0x76, 0x10] (poke [(0x0011, 0x02)] { State.reset with x := 0x01, p := Flags.ofByte 0x21 })) =
      some (0x81, 0xA0) := by decide

/-- V-BCC-1. -/
theorem test_bcc_taken :
    after (fun t => t.pc) (code 0x8000 [0x90, 0x04] { State.reset with p := Flags.ofByte 0x20 }) =
      some 0x8006 := by decide

/-- V-BCC-2. -/
theorem test_bcc_not_taken :
    after (fun t => t.pc) (code 0x8000 [0x90, 0x04] { State.reset with p := Flags.ofByte 0x21 }) =
      some 0x8002 := by decide

/-- V-BCS-1. -/
theorem test_bcs_taken :
    after (fun t => t.pc) (code 0x8000 [0xB0, 0x04] { State.reset with p := Flags.ofByte 0x21 }) =
      some 0x8006 := by decide

/-- V-BCS-2. -/
theorem test_bcs_not_taken :
    after (fun t => t.pc) (code 0x8000 [0xB0, 0x04] { State.reset with p := Flags.ofByte 0x20 }) =
      some 0x8002 := by decide

/-- V-BMI-1. -/
theorem test_bmi_taken :
    after (fun t => t.pc) (code 0x8000 [0x30, 0x02] { State.reset with p := Flags.ofByte 0xA0 }) =
      some 0x8004 := by decide

/-- V-BMI-2. -/
theorem test_bmi_not_taken :
    after (fun t => t.pc) (code 0x8000 [0x30, 0x02] { State.reset with p := Flags.ofByte 0x20 }) =
      some 0x8002 := by decide

/-- V-BPL-1. -/
theorem test_bpl_taken :
    after (fun t => t.pc) (code 0x8000 [0x10, 0x02] { State.reset with p := Flags.ofByte 0x20 }) =
      some 0x8004 := by decide

/-- V-BPL-2. -/
theorem test_bpl_not_taken :
    after (fun t => t.pc) (code 0x8000 [0x10, 0x02] { State.reset with p := Flags.ofByte 0xA0 }) =
      some 0x8002 := by decide

/-- V-BVC-1. -/
theorem test_bvc_taken :
    after (fun t => t.pc) (code 0x8000 [0x50, 0x02] { State.reset with p := Flags.ofByte 0x20 }) =
      some 0x8004 := by decide

/-- V-BVC-2. -/
theorem test_bvc_not_taken :
    after (fun t => t.pc) (code 0x8000 [0x50, 0x02] { State.reset with p := Flags.ofByte 0x60 }) =
      some 0x8002 := by decide

/-- V-BVS-1. -/
theorem test_bvs_taken :
    after (fun t => t.pc) (code 0x8000 [0x70, 0x02] { State.reset with p := Flags.ofByte 0x60 }) =
      some 0x8004 := by decide

/-- V-BVS-2. -/
theorem test_bvs_not_taken :
    after (fun t => t.pc) (code 0x8000 [0x70, 0x02] { State.reset with p := Flags.ofByte 0x20 }) =
      some 0x8002 := by decide

/-- R168. -/
theorem test_beq_taken :
    after (fun t => t.pc) (code 0x8000 [0xF0, 0x02] { State.reset with p := Flags.ofByte 0x22 }) =
      some 0x8004 := by decide

/-- R168. -/
theorem test_beq_not_taken :
    after (fun t => t.pc) (code 0x8000 [0xF0, 0x02] State.reset) =
      some 0x8002 := by decide

/-- V-BR-80. -/
theorem test_bne_backward_128 :
    after (fun t => t.pc) (code 0x8000 [0xD0, 0x80] State.reset) =
      some 0x7F82 := by decide

/-- V-BR-WRAP. -/
theorem test_bne_wraps :
    after (fun t => t.pc) (code 0xFFFE [0xD0, 0x10] State.reset) =
      some 0x0010 := by decide

/-- V-JMP. -/
theorem test_jmp :
    after (fun t => t.pc) (code 0x8000 [0x4C, 0x00, 0x90] State.reset) =
      some 0x9000 := by decide

/-- V-JMPI-BUG. -/
theorem test_jmp_indirect_same_page :
    after (fun t => t.pc) (code 0x8000 [0x6C, 0xFF, 0x02] (poke [(0x02FF, 0x34), (0x0200, 0x12), (0x0300, 0x56)] State.reset)) =
      some 0x1234 := by decide

/-- V-JSR. -/
theorem test_jsr_pushes_its_last_byte :
    after (fun t => (t.pc, t.sp, t.peek 0x1FD, t.peek 0x1FC)) (code 0x8003 [0x20, 0x00, 0x90] State.reset) =
      some (0x9000, 0xFB, 0x80, 0x05) := by decide

/-- V-RTS-WRAP. -/
theorem test_rts_wraps :
    after (fun t => (t.pc, t.sp)) (code 0x8000 [0x60] (poke [(0x01FF, 0x33), (0x0100, 0x12)] { State.reset with sp := 0xFE })) =
      some (0x1234, 0x00) := by decide

/-- V-PHA-WRAP. -/
theorem test_pha_wraps :
    after (fun t => (t.peek 0x100, t.sp)) (code 0x8000 [0x48] { State.reset with a := 0x42, sp := 0x00 }) =
      some (0x42, 0xFF) := by decide

/-- V-PHP. -/
theorem test_php_b_as_stored :
    after (fun t => (t.peek 0x1FD, t.sp)) (code 0x8000 [0x08] { State.reset with p := Flags.ofByte 0xA1 }) =
      some (0xA1, 0xFC) := by decide

/-- V-PLA-WRAP. -/
theorem test_pla_wraps :
    after (fun t => (t.a, t.sp, t.p.toByte)) (code 0x8000 [0x68] (poke [(0x0100, 0x80), (0x0200, 0x01)] { State.reset with sp := 0xFF })) =
      some (0x80, 0x00, 0xA0) := by decide

/-- V-PLP-00. -/
theorem test_plp_bit5_forced :
    after (fun t => (t.p.toByte, t.sp)) (code 0x8000 [0x28] { State.reset with sp := 0xFC, p := Flags.ofByte 0xFF }) =
      some (0x20, 0xFD) := by decide

/-- V-BRK. -/
theorem test_brk_takes_the_trap :
    after (fun t => (t.pc, t.p.toByte, t.peek 0x1FB)) (code 0x8000 [0x00] (poke [(0xFFFF, 0x90)] { State.reset with p := Flags.ofByte 0x21 })) =
      some (0x9000, 0x31, 0x21) := by decide

/-- V-BRK-WRAP. -/
theorem test_brk_stack_wraps :
    after (fun t => (t.peek 0x101, t.peek 0x100, t.peek 0x1FF)) (code 0x8000 [0x00] (poke [(0xFFFF, 0x90)] { State.reset with sp := 0x01 })) =
      some (0x80, 0x01, 0x20) := by decide

/-- V-RTI. -/
theorem test_rti_adds_nothing :
    after (fun t => (t.pc, t.sp, t.p.toByte)) (code 0x8000 [0x40] (poke [(0x01FB, 0xC3), (0x01FC, 0x34), (0x01FD, 0x12)] { State.reset with sp := 0xFA })) =
      some (0x1234, 0xFD, 0xE3) := by decide

/-- V-CLC. -/
theorem test_clc :
    after (fun t => t.p.toByte) (code 0x8000 [0x18] { State.reset with p := Flags.ofByte 0x21 }) =
      some 0x20 := by decide

/-- V-SEC. -/
theorem test_sec :
    after (fun t => t.p.toByte) (code 0x8000 [0x38] { State.reset with p := Flags.ofByte 0x20 }) =
      some 0x21 := by decide

/-- V-CLI. -/
theorem test_cli :
    after (fun t => t.p.toByte) (code 0x8000 [0x58] { State.reset with p := Flags.ofByte 0x24 }) =
      some 0x20 := by decide

/-- V-SEI. -/
theorem test_sei :
    after (fun t => t.p.toByte) (code 0x8000 [0x78] { State.reset with p := Flags.ofByte 0x20 }) =
      some 0x24 := by decide

/-- V-CLD. -/
theorem test_cld :
    after (fun t => t.p.toByte) (code 0x8000 [0xD8] { State.reset with p := Flags.ofByte 0x28 }) =
      some 0x20 := by decide

/-- V-SED. -/
theorem test_sed :
    after (fun t => t.p.toByte) (code 0x8000 [0xF8] { State.reset with p := Flags.ofByte 0x20 }) =
      some 0x28 := by decide

/-- V-CLV. -/
theorem test_clv :
    after (fun t => t.p.toByte) (code 0x8000 [0xB8] { State.reset with p := Flags.ofByte 0x60 }) =
      some 0x20 := by decide

/-- V-NOP. -/
theorem test_nop :
    after (fun t => (t.a, t.pc, t.p.toByte)) (code 0x8000 [0xEA] { State.reset with a := 0x12, p := Flags.ofByte 0xE3 }) =
      some (0x12, 0x8001, 0xE3) := by decide

/-- V-UND-0C. -/
theorem test_und_reads_no_operand :
    after (fun t => (t.pc, t.ppu)) (code 0x8000 [0x0C, 0x00, 0x20] State.reset) =
      some (0x8001, []) := by decide

/-- V-UND-A7. -/
theorem test_und_is_not_lax :
    after (fun t => (t.a, t.x, t.pc)) (code 0x8000 [0xA7, 0x10] (poke [(0x0010, 0x99)] State.reset)) =
      some (0x00, 0x00, 0x8001) := by decide

/-- V-LDA-Z. -/
theorem test_lda_keeps_c_v :
    after (fun t => (t.a, t.p.toByte)) (code 0x8000 [0xA9, 0x00] { State.reset with a := 0x55, p := Flags.ofByte 0xE1 }) =
      some (0x00, 0x63) := by decide

/-- V-AM-IZY-W. -/
theorem test_lda_pointer_wraps :
    after (fun t => t.a) (code 0x8000 [0xB1, 0xFF] (poke [(0x00FF, 0x00), (0x0000, 0x03), (0x0100, 0x06), (0x0301, 0x4D), (0x0601, 0x4E)] { State.reset with y := 0x01 })) =
      some 0x4D := by decide

/-- V-AM-ZPY-W. -/
theorem test_ldx_zero_page_y_wraps :
    after (fun t => t.x) (code 0x8000 [0xB6, 0x80] (poke [(0x007F, 0x05), (0x017F, 0x06)] { State.reset with y := 0xFF })) =
      some 0x05 := by decide

/-- V-LDX-ABY. -/
theorem test_ldx_absolute_y :
    after (fun t => (t.x, t.p.toByte)) (code 0x8000 [0xBE, 0x00, 0x02] (poke [(0x0203, 0xFE)] { State.reset with y := 0x03 })) =
      some (0xFE, 0xA0) := by decide

/-- V-LDY-ABX. -/
theorem test_ldy_absolute_x :
    after (fun t => t.y) (code 0x8000 [0xBC, 0xF0, 0x02] (poke [(0x0300, 0x01)] { State.reset with x := 0x10 })) =
      some 0x01 := by decide

/-- V-STA-IZX. -/
theorem test_sta_indexed_indirect :
    after (fun t => t.peek 0x200) (code 0x8000 [0x81, 0x20] (poke [(0x0022, 0x00), (0x0023, 0x02)] { State.reset with a := 0x66, x := 0x02 })) =
      some 0x66 := by decide

/-- V-MAP-6. -/
theorem test_sta_ppu_event :
    after (fun t => t.ppu) (code 0x8000 [0x8D, 0x08, 0x20] { State.reset with a := 0x12 }) =
      some [.write 0 0x12] := by decide

/-- V-STX-ZPY. -/
theorem test_stx_zero_page_y_wraps :
    after (fun t => t.peek 0x00) (code 0x8000 [0x96, 0xF0] { State.reset with x := 0x06, y := 0x10 }) =
      some 0x06 := by decide

/-- V-STY. -/
theorem test_sty_zero_page_x :
    after (fun t => t.peek 0x11) (code 0x8000 [0x94, 0x10] { State.reset with x := 0x01, y := 0x09 }) =
      some 0x09 := by decide

/-- V-TAX. -/
theorem test_tax :
    after (fun t => (t.x, t.p.toByte)) (code 0x8000 [0xAA] { State.reset with a := 0x80 }) =
      some (0x80, 0xA0) := by decide

/-- V-TAY. -/
theorem test_tay :
    after (fun t => (t.y, t.p.toByte)) (code 0x8000 [0xA8] { State.reset with y := 0x01 }) =
      some (0x00, 0x22) := by decide

/-- V-TXA. -/
theorem test_txa :
    after (fun t => (t.a, t.p.toByte)) (code 0x8000 [0x8A] { State.reset with a := 0x80, x := 0x7F, p := Flags.ofByte 0xA0 }) =
      some (0x7F, 0x20) := by decide

/-- V-TYA. -/
theorem test_tya :
    after (fun t => (t.a, t.p.toByte)) (code 0x8000 [0x98] { State.reset with y := 0xFF }) =
      some (0xFF, 0xA0) := by decide

/-- V-TSX. -/
theorem test_tsx :
    after (fun t => (t.x, t.p.toByte)) (code 0x8000 [0xBA] State.reset) =
      some (0xFD, 0xA0) := by decide

/-- V-TXS. -/
theorem test_txs_no_flag :
    after (fun t => (t.sp, t.p.toByte)) (code 0x8000 [0x9A] { State.reset with x := 0x00, p := Flags.ofByte 0xA0 }) =
      some (0x00, 0xA0) := by decide

/-- V-OPWRAP. -/
theorem test_operand_byte_wraps_to_zero :
    after (fun t => (t.a, t.pc)) (code 0xFFFF [0xA9] (poke [(0x0000, 0x5C)] State.reset)) =
      some (0x5C, 0x0001) := by decide

/-- V-AM-ABS. -/
theorem test_ram_mirror :
    after (fun t => t.a) (code 0x8000 [0xAD, 0x34, 0x12] (poke [(0x0234, 0x42)] State.reset)) =
      some 0x42 := by decide

/-- V-LDA-PPU: a load from 0x2002 receives the answer of PPU register 2, whatever it is. -/
theorem test_lda_ppu :
    after (fun t => (t.a, t.ppu)) (code 0x8000 [0xAD, 0x02, 0x20] State.reset) =
      some (Config.ppuRead [] 2, [.read 2]) := rfl

/-- V-FETCH-PPU: the opcode fetched at 0x2000 is the answer of PPU register 0. -/
theorem test_fetch_ppu : (fetchByte { State.reset with pc := 0x2000 }).1 = Config.ppuRead [] 0 := rfl

/-! ### Reset, load, the placed word -/

/-- S7: with 0x00, 0x80 at the end of the image the reset vector is 0x8000; SP is 0xFD. -/
theorem test_load_takes_the_reset_vector :
    (nextState (load State.reset.p [0x00, 0x80, 0x00, 0x90] { State.reset with a := 0x12, phase := .delay 1 })).map
        (fun t => (t.pc, t.sp, t.a, t.phase)) =
      some (0x8000, 0xFD, 0x00, .fetch) := by decide

/-- R255 with D22: an image of no byte is refused. -/
theorem test_load_refuses_the_empty_image : load State.reset.p [] State.reset = .refused (.imageSize 0) := rfl

/-- U6, R252: nothing runs before a load. -/
theorem test_no_step_before_a_load :
    step State.reset = .refused .notLoaded ∧ tick State.reset = .refused .notLoaded ∧
      (nextState (load State.reset.p [0xEA, 0xFB, 0xFF, 0x00, 0x00] State.reset)).map (fun t => (t.loaded, t.pc)) =
        some (true, 0xFFFB) := by
  exact ⟨rfl, rfl, by decide⟩

/-- The word placed is the word run, also where PC points into the PPU window (log 6). -/
theorem test_placed_word_runs :
    after (fun t => t.a) (State.reset.withFetchWord 16 0x10A9) = some 0x10 ∧
      after (fun t => (t.a, t.pc)) ({ State.reset with pc := 0x1FFF }.withFetchWord 16 0x10A9) = some (0x10, 0x8002) := by
  decide

/-! ### Ticks -/

/-- T1: LDA 0x80F0,Y with the page crossed is in Delay(1) after 4 ticks and done after 5, with A = 0x46. -/
theorem test_ticks_lda_crossed :
    let s := code 0x9000 [0xB9, 0xF0, 0x80] (poke [(0x8110, 0x46)] { State.reset with y := 0x20 })
    (nextState (ticks 3 s)).map (fun t => (t.phase, t.a, t.pc)) = some (.execute 0xB9 1, 0x00, 0x9001) ∧
      (nextState (ticks 4 s)).map (fun t => (t.phase, t.a, t.pc)) = some (.delay 1, 0x46, 0x9003) ∧
      (nextState (ticks 5 s)).map (fun t => t.phase) = some .fetch := by decide

/-- T2: BEQ taken to another page is in Delay(2) after 2 ticks. -/
theorem test_ticks_branch_crossed :
    (nextState (ticks 2 (code 0x80F0 [0xF0, 0x7F] { State.reset with p := Flags.ofByte 0x22 }))).map
        (fun t => (t.phase, t.pc)) =
      some (.delay 2, 0x8171) := by decide

/-- V-AM-ABX-RMW: an indexed INC that crosses a page takes 8 ticks. -/
theorem test_ticks_rmw : ticksLeft (code 0x8000 [0xFE, 0xFF, 0x12] { State.reset with x := 0x01 }) = 8 := by decide

/-- T4: reset in the middle of an instruction discards the latch. -/
theorem test_reset_discards_the_latch :
    (nextState (tick (code 0x9000 [0xB9, 0xF0, 0x80] State.reset))).map
        (fun t => ((hardReset State.reset.p t).phase, (hardReset State.reset.p t).pc)) =
      some (.fetch, 0x0000) := by decide

/-! ### Witnesses: what meets the hypotheses of each statement -/

/-- A state with registers, memory and the port in use, at a NOP. -/
def sample : State :=
  code 0x8000 [0xEA]
    (poke [(0x0010, 0x80), (0x0011, 0x12), (0x01FF, 0x33), (0xFFFF, 0x90), (0x2001, 0x07)]
      { State.reset with a := 0x50, x := 0x01, y := 0xFF, sp := 0x00, p := Flags.ofByte 0xC1 })

theorem sample_inv : sample.Inv := by decide

/-- The sample at another PC and phase. -/
def sampleAt (pc : Addr) (h : Phase) : State := { sample with pc := pc, phase := h }

theorem witness_StepRunsTheDecodedInstruction :
    (code 0x8000 [0xA9, 0x10, 0xEA] sample).loaded = true ∧ (code 0x8000 [0xA9, 0x10, 0xEA] sample).phase = .fetch ∧
      decode (fetchBytes 3 (code 0x8000 [0xA9, 0x10, 0xEA] sample)).1 = .ok (.lda (.imm 0x10), [0xEA]) := by decide

/-- At the top of memory, and up to the last byte before the PPU window. -/
theorem witness_FetchReadsTheBytesAtPc :
    (∀ k < 3, inPpu ((sampleAt 0xFFFE .fetch).pc + BitVec.ofNat 16 k) = false) ∧
      ∀ k < 3, inPpu ((sampleAt 0x1FFD .fetch).pc + BitVec.ofNat 16 k) = false := by decide

theorem witness_FetchFromThePpuWindowReceivesPpuRead :
    (0x2000 ≤ (sampleAt 0x2000 .fetch).pc.toNat ∧ (sampleAt 0x2000 .fetch).pc.toNat < 0x4000) ∧
      0x2000 ≤ (sampleAt 0x3FFF .fetch).pc.toNat ∧ (sampleAt 0x3FFF .fetch).pc.toNat < 0x4000 := by decide

theorem witness_DecodeAfterEncodeIsIdentity :
    (Instr.lda (.mem (.izy 0xFF))).wf = true ∧ (Instr.jsr 0xFFFF).wf = true ∧ (Instr.und 0xFF).wf = true := by decide

theorem witness_EncodeAfterDecodeIsIdentity :
    decode [0x91, 0xFF, 0x00] = .ok (.sta (.izy 0xFF), [0x00]) := by decide

/-- Both sides: bytes enough, and one too few. -/
theorem witness_DecodingFailsOnlyForMissingBytes :
    (decodeOpcode 0xAD 0 0).mode.operandBytes ≤ [0x34, 0x12].length ∧
      ¬(decodeOpcode 0xAD 0 0).mode.operandBytes ≤ [0x34].length := by decide

theorem witness_UndefinedOpcodesAreTheListedBytes :
    0x02#8 ∈ undefinedOpcodes ∧ 0xFF#8 ∈ undefinedOpcodes ∧ 0xEA#8 ∉ undefinedOpcodes := by decide

/-- Where the windows meet. -/
theorem witness_EveryAddressSelectsOneTarget :
    (0x1FFF#16).toNat < 0x2000 ∧ (0x2000 ≤ (0x2000#16).toNat ∧ (0x2000#16).toNat < 0x4000) ∧
      (0x2000 ≤ (0x3FFF#16).toNat ∧ (0x3FFF#16).toNat < 0x4000) ∧ 0x4000 ≤ (0x4000#16).toNat ∧
      inPpu 0x1FFF = false ∧ inPpu 0x4000 = false := by decide

theorem witness_ReadAfterWriteGivesTheByteWritten :
    sample.Inv ∧ inPpu 0x1FFF = false ∧ (0x1FFF#16).toNat < 0x2000 ∧ (0x07FF#16).toNat < 0x2000 ∧
      0x07FF#16 &&& 0x07FF = 0x1FFF#16 &&& 0x07FF := by decide

theorem witness_WriteChangesOneTarget :
    sample.Inv ∧ (0x2000 ≤ (0x3FFF#16).toNat ∧ (0x3FFF#16).toNat < 0x4000) ∧
      ¬(0x2000 ≤ (0x1FFF#16).toNat ∧ (0x1FFF#16).toNat < 0x4000) ∧
      ¬(0x2000 ≤ (0x4000#16).toNat ∧ (0x4000#16).toNat < 0x4000) ∧
      inPpu 0x07FE = false ∧ sameByte 0x07FE 0x1FFF = false := by decide

theorem witness_StorageIsIdempotentAndThePortSeesEveryAccess :
    sample.Inv ∧ inPpu 0x4000 = false ∧ inPpu 0x2000 = true := by decide

theorem witness_MemoriesThatReadAlikeAreEqual :
    sample.Inv ∧ (sample.setA 0x00).Inv ∧ MemoryKept sample (sample.setA 0x00) :=
  ⟨sample_inv, by decide, fun _ _ => rfl⟩

theorem witness_DataReadDeliversTheOperand :
    inPpu (effectiveAddr (.abx 0x1FFE) sample) = false ∧ inPpu (effectiveAddr (.abx 0x1FFF) sample) = true := by decide

/-- Stores to RAM and to the port; a byte beside the one stored, and a mirror of it. -/
theorem witness_StoresWriteOnlyTheEffectiveAddress :
    sample.Inv ∧ (Instr.sta (.abx 0x1FFF), sample.a) ∈
        [(Instr.sta (.abx 0x1FFF), sample.a), (Instr.stx (.abx 0x1FFF), sample.x), (Instr.sty (.abx 0x1FFF), sample.y)] ∧
      inPpu (effectiveAddr (.abx 0x1FFF) sample) = true ∧ inPpu (effectiveAddr (.zpy 0x11) sample) = false ∧
      sameByte 0x0810 (effectiveAddr (.zpy 0x11) sample) = true ∧
      sameByte 0x0011 (effectiveAddr (.zpy 0x11) sample) = false := by decide

theorem witness_ComparesSetCarryZeroSign :
    (Instr.cpy (.imm 0xFF), sample.y) ∈
      [(Instr.cmp (.imm 0xFF), sample.a), (Instr.cpx (.imm 0xFF), sample.x), (Instr.cpy (.imm 0xFF), sample.y)] := by
  decide

theorem witness_LogicCombinesBitByBit :
    (Instr.and (.imm 0x80), and) ∈
        [(Instr.and (.imm 0x80), and), (Instr.ora (.imm 0x80), or), (Instr.eor (.imm 0x80), Bool.xor)] ∧ 7 < 8 :=
  ⟨.head _, by decide⟩

theorem witness_IncDecChangeOneByte :
    sample.Inv ∧ inPpu (effectiveAddr (.zpx 0x0F) sample) = false ∧ inPpu (effectiveAddr (.abs 0x2000) sample) = true ∧
      (Instr.dec (.zp 0x10), 0x7F) ∈ [(Instr.inc (.zp 0x10), 0x81), (Instr.dec (.zp 0x10), 0x7F)] := by decide

theorem witness_AccumulatorShiftsMoveOneBit :
    (Instr.ror .acc, 0xA8, false) ∈
      [(Instr.asl .acc, 0xA0, false), (Instr.lsr .acc, 0x28, false), (Instr.rol .acc, 0xA1, false),
        (Instr.ror .acc, 0xA8, false)] := by decide

theorem witness_MemoryShiftsChangeOneByte :
    sample.Inv ∧ inPpu (effectiveAddr (.zp 0x10) sample) = false ∧ inPpu (effectiveAddr (.abs 0x3FFF) sample) = true ∧
      (Instr.asl (.mem (.zp 0x10)), 0x00, true) ∈
        [(Instr.asl (.mem (.zp 0x10)), 0x00, true), (Instr.lsr (.mem (.zp 0x10)), 0x40, false)] := by decide

theorem witness_BranchesTestOneFlag :
    (Instr.bcs 0x80, decide (sample.p.c = true)) ∈
      [(Instr.bcc 0x80, decide (sample.p.c = false)), (Instr.bcs 0x80, decide (sample.p.c = true))] := by decide

/-- A pointer at the end of a page, in RAM and in the PPU window. -/
theorem witness_JumpsSetPc : inPpu 0x02FF = false ∧ inPpu 0x3FFF = true ∧ inPpu 0x2000 = true := by decide

/-- SP is 0x00, so the pushes wrap. -/
theorem witness_JsrPushesTheReturnAddressLessOne :
    sample.Inv ∧ sample.sp = 0x00 ∧ inPpu (stackAddr (sample.sp - 1)) = false := by decide

theorem witness_RtsUndoesJsr :
    sample.Inv ∧ exec (.jsr 0x9000) sample = .next ((push16 (sample.pc - 1) sample).setPc 0x9000) := ⟨sample_inv, rfl⟩

theorem witness_PushesStoreAtTheStackPointer :
    sample.Inv ∧ (Instr.php, sample.p.toByte) ∈ [(Instr.pha, sample.a), (Instr.php, sample.p.toByte)] := by decide

theorem witness_PullUndoesPush :
    sample.Inv ∧ exec .pha sample = .next (push sample.a sample) ∧ exec .php sample = .next (push sample.p.toByte sample) :=
  ⟨sample_inv, rfl, rfl⟩

theorem witness_BrkSavesPcAndStatusAndVectors :
    sample.Inv ∧ inPpu 0x0100 = false ∧ sameByte 0x0100 (stackAddr sample.sp) = true ∧
      sameByte 0x01FF (stackAddr (sample.sp - 1)) = true ∧ sameByte 0x09FE (stackAddr (sample.sp - 2)) = true := by decide

theorem witness_RtiUndoesBrk : sample.Inv ∧ exec .brk sample = .next (takeBreak sample) := ⟨sample_inv, rfl⟩

theorem witness_StepAtAnUndefinedOpcodeAdvancesPcByOne :
    (code 0xFFFF [0xFF] sample).loaded = true ∧ (code 0xFFFF [0xFF] sample).phase = .fetch ∧
      inPpu (code 0xFFFF [0xFF] sample).pc = false ∧
      (code 0xFFFF [0xFF] sample).peek (code 0xFFFF [0xFF] sample).pc ∈ undefinedOpcodes := by decide

theorem witness_RegistersChangeOnlyByTheirWriters :
    exec .nop sample = .next sample ∧ .a ∉ Instr.nop.writes ∧ .x ∉ Instr.nop.writes ∧ .y ∉ Instr.nop.writes ∧
      .sp ∉ Instr.nop.writes ∧ .pc ∉ Instr.nop.writes := ⟨rfl, by decide⟩

theorem witness_FlagsChangeOnlyByTheirWriters :
    exec .txs sample = .next { sample with sp := sample.x } ∧ .c ∉ Instr.txs.writes ∧ .z ∉ Instr.txs.writes ∧
      .n ∉ Instr.txs.writes ∧ .i ∉ Instr.txs.writes ∧ .d ∉ Instr.txs.writes ∧ .b ∉ Instr.txs.writes ∧
      .v ∉ Instr.txs.writes := ⟨rfl, by decide⟩

theorem witness_MemoryChangesOnlyByItsWriters :
    (exec .rts sample = .next ((pull16 sample).2.setPc ((pull16 sample).1 + 1)) ∧ .memory ∉ Instr.rts.writes) ∧
      exec .pha sample = .next (push sample.a sample) ∧ inPpu 0x0200 = false ∧
      ∀ k : Byte, sameByte 0x0200 (stackAddr k) = false := ⟨⟨rfl, by decide⟩, rfl, by decide⟩

theorem witness_InterruptDecimalBreakFlagsGateNothing :
    Instr.adc (.imm 0x19) ≠ .php ∧ Instr.adc (.imm 0x19) ≠ .brk ∧
      exec (.adc (.imm 0x19)) sample = .next (addToA 0x19 sample) := ⟨by decide, by decide, rfl⟩

theorem witness_StepKeepsTheInvariant : sample.Inv ∧ step sample = .next { sample with pc := 0x8001 } :=
  ⟨sample_inv, rfl⟩

theorem witness_TickKeepsTheInvariant :
    sample.Inv ∧ tick sample = .next { sample with pc := 0x8001, phase := .execute 0xEA 1 } := ⟨sample_inv, rfl⟩

/-- An instruction boundary, and the longest Execute and Delay. -/
theorem witness_TicksOfAnInstructionAddUpToTheStep :
    sample.Inv ∧ (sampleAt 0x8001 (.execute 0xFE 6)).Inv ∧ (sampleAt 0x8001 (.delay 2)).Inv := by decide

theorem witness_IdleTicksOnlyCountDown :
    sample.loaded = true ∧ sample.phase = .fetch ∧ 1 ≤ 1 ∧ 1 < baseCycles (fetchByte sample).1 := by decide

theorem witness_NoBoundaryBeforeTheLastTick :
    sample.Inv ∧ 1 ≤ 1 ∧ 1 < ticksLeft sample ∧
      ticks 1 sample = .next { sample with pc := 0x8001, phase := .execute 0xEA 1 } :=
  ⟨sample_inv, by decide, by decide, rfl⟩

/-- A branch that crosses a page and an indexed read-modify-write that does are the longest of their kinds. -/
theorem witness_InstructionsTakeTwoToEightTicks :
    sample.phase = .fetch ∧ ticksLeft sample = 2 ∧ ticksLeft (code 0x80F0 [0xB0, 0x7F] sample) = 4 ∧
      ticksLeft (code 0x8000 [0x1E, 0xFF, 0x12] sample) = 8 := by decide

/-- The sum of low byte and index at 255 and at 256, in each of the three modes, and forms of the modes with no penalty. -/
theorem witness_PageCrossingsCostOneTick :
    (penalty (.sta (.abx 0x12FE)) sample = 0 ∧ penalty (.sta (.abx 0x12FF)) sample = 1) ∧
      (penalty (.ldx (.mem (.aby 0x1200))) sample = 0 ∧ penalty (.ldx (.mem (.aby 0x1201))) sample = 1) ∧
      (penalty (.cmp (.mem (.izy 0x20))) sample = 0 ∧ penalty (.cmp (.mem (.izy 0x11))) sample = 1) ∧
      (Instr.jmpInd 0x12FF).mode = .ind ∧ (Instr.dec (.zpx 0xFF)).mode = .zpx ∧ Instr.brk.mode = .imp := by decide

theorem witness_PageCrossingsCostOneTick_member :
    memoryForms.length = 21 ∧ Instr.sta ∈ memoryForms ∧ (fun m => Instr.ror (.mem m)) ∈ memoryForms := by
  refine ⟨rfl, ?_, ?_⟩ <;> simp [memoryForms]

/-- The smallest and the largest image, and one too large. -/
theorem witness_LoadPlacesTheImageAndResets :
    (sample.Inv ∧ State.reset.loaded = false ∧ State.reset.Inv) ∧
      (1 ≤ (List.replicate 1 0x00#8).length ∧ (List.replicate 1 0x00#8).length ≤ 49120) ∧
      (1 ≤ (List.replicate 49120 0x00#8).length ∧ (List.replicate 49120 0x00#8).length ≤ 49120) ∧
      ¬(1 ≤ (List.replicate 49121 0x00#8).length ∧ (List.replicate 49121 0x00#8).length ≤ 49120) :=
  ⟨⟨sample_inv, rfl, by decide⟩, by simp only [List.length_replicate]; decide⟩

end Sys2Proof.Tests
end

section
/-! PROOFS. The family of 10_state.md: the status byte (O39), what an instruction can change (O47, O48), and the three flags
that gate nothing (O50). -/

open Sys2Proof

namespace Sys2Proof.Machine

/-! ### The status byte (10_state.md R34) -/

/-- The eight bits of the status byte, bit 0 first; bit 5 is the constant 1 (R26). -/
def Flags.bits (p : Flags) : List Bool := [p.c, p.z, p.i, p.d, p.b, true, p.v, p.n]

theorem Flags.toByte_toNat (p : Flags) :
    p.toByte.toNat =
      p.n.toNat * 128 + p.v.toNat * 64 + 32 + p.b.toNat * 16 + p.d.toNat * 8 + p.i.toNat * 4 + p.z.toNat * 2 +
        p.c.toNat := by
  have := p.n.toNat_le
  have := p.v.toNat_le
  have := p.b.toNat_le
  have := p.d.toNat_le
  have := p.i.toNat_le
  have := p.z.toNat_le
  have := p.c.toNat_le
  rw [Flags.toByte, BitVec.toNat_ofNat]
  omega

theorem Flags.toByte_eq_ofBoolListLE (p : Flags) : p.toByte = BitVec.ofBoolListLE p.bits := by
  apply BitVec.eq_of_toNat_eq
  rw [Flags.toByte_toNat]
  simp only [Flags.bits, BitVec.ofBoolListLE, BitVec.toNat_concat, List.length_nil, BitVec.toNat_zero,
    Bool.toNat_true]
  omega

theorem Flags.toByte_getLsbD (p : Flags) (k : Nat) : p.toByte.getLsbD k = p.bits.getD k false := by
  rw [Flags.toByte_eq_ofBoolListLE]
  exact BitVec.getLsbD_ofBoolListLE ..

theorem Flags.ofByte_toByte (p : Flags) : Flags.ofByte p.toByte = p := by
  simp only [Flags.ofByte, Flags.toByte_getLsbD, Flags.bits]
  rfl

theorem Flags.toByte_ofByte (v : Byte) : (Flags.ofByte v).toByte = v ||| 0x20#8 := by
  apply BitVec.eq_of_getLsbD_eq
  intro k hk
  rw [Flags.toByte_getLsbD]
  interval_cases k <;> simp [Flags.bits, Flags.ofByte]

/-- Flags whose bits are those of `p` but for bit `k` give the byte that differs from `p`'s in bit `k` alone. -/
theorem Flags.toByte_getLsbD_of_bits_set {p q : Flags} {k : Nat} {x : Bool} (hq : q.bits = p.bits.set k x) (hk : k < 8) :
    q.toByte.getLsbD k = x ∧ ∀ j < 8, j ≠ k → q.toByte.getLsbD j = p.toByte.getLsbD j := by
  have hlen : k < p.bits.length := hk
  simp only [Flags.toByte_getLsbD, hq, List.getD_eq_getElem?_getD]
  exact ⟨by simp [List.getElem?_set_self hlen], fun j _ hj => by rw [List.getElem?_set_ne hj.symm]⟩

/-- Settles O39: the byte is the number whose binary digits are `Flags.bits`, so each flag is one digit of it. -/
theorem statusByteConversionIsExact : Obligations.StatusByteConversionIsExact := by
  refine ⟨fun p => ⟨p.toByte_toNat, by rw [p.toByte_getLsbD]; rfl, p.ofByte_toByte⟩,
    fun v => ⟨Flags.toByte_ofByte v, rfl⟩, fun p x fk hfk => ?_⟩
  have hset : fk.1.bits = p.bits.set fk.2 x ∧ fk.2 < 8 := by
    simp only [List.mem_cons, List.not_mem_nil, or_false] at hfk
    rcases hfk with rfl | rfl | rfl | rfl | rfl | rfl | rfl <;> exact ⟨rfl, by simp⟩
  exact Flags.toByte_getLsbD_of_bits_set hset.1 hset.2

/-! ### What an instruction can change (10_state.md R21 to R38) -/

/-- Of the places that an instruction can write, `t` differs from `s` only in those that `w` lists; the phase and the
model's own record of a load, which no instruction writes (R38, log 3), are the same. -/
structure ChangesOnly (w : List Written) (s t : State) : Prop where
  a : .a ∉ w → t.a = s.a
  x : .x ∉ w → t.x = s.x
  y : .y ∉ w → t.y = s.y
  sp : .sp ∉ w → t.sp = s.sp
  pc : .pc ∉ w → t.pc = s.pc
  n : .n ∉ w → t.p.n = s.p.n
  v : .v ∉ w → t.p.v = s.p.v
  b : .b ∉ w → t.p.b = s.p.b
  d : .d ∉ w → t.p.d = s.p.d
  i : .i ∉ w → t.p.i = s.p.i
  z : .z ∉ w → t.p.z = s.p.z
  c : .c ∉ w → t.p.c = s.p.c
  mem : .memory ∉ w → t.mem = s.mem
  phase : t.phase = s.phase
  loaded : t.loaded = s.loaded

/-- What happens after a data read changes no more places seen from before it: a read changes at most the record of the
port, which is no place that an instruction writes. -/
theorem ChangesOnly.of_setPpu {w : List Written} {s t : State} {e : List PpuEvent} (h : ChangesOnly w (s.setPpu e) t) :
    ChangesOnly w s t :=
  ⟨h.a, h.x, h.y, h.sp, h.pc, h.n, h.v, h.b, h.d, h.i, h.z, h.c, h.mem, h.phase, h.loaded⟩

theorem ChangesOnly.of_busRead {w : List Written} {s t : State} {ea : Addr} (h : ChangesOnly w (busRead ea s).2 t) :
    ChangesOnly w s t := by
  rw [busRead_state] at h
  exact h.of_setPpu

theorem ChangesOnly.of_readOperand {w : List Written} {s t : State} {o : ReadOperand}
    (h : ChangesOnly w (readOperand o s).2 t) : ChangesOnly w s t := by
  rw [readOperand_state] at h
  exact h.of_setPpu

section Frames

variable (s : State)

theorem transfer_setA_changesOnly (v : Byte) : ChangesOnly [.a, .n, .z] s (transfer State.setA v s) := by
  constructor <;> simp [transfer]

theorem transfer_setX_changesOnly (v : Byte) : ChangesOnly [.x, .n, .z] s (transfer State.setX v s) := by
  constructor <;> simp [transfer]

theorem transfer_setY_changesOnly (v : Byte) : ChangesOnly [.y, .n, .z] s (transfer State.setY v s) := by
  constructor <;> simp [transfer]

theorem combineWithA_changesOnly (f : Byte → Byte → Byte) (o : ReadOperand) :
    ChangesOnly [.a, .n, .z] s (combineWithA f o s) :=
  (transfer_setA_changesOnly (readOperand o s).2 _).of_readOperand

theorem addToA_changesOnly (m : Byte) : ChangesOnly [.a, .n, .v, .z, .c] s (addToA m s) := by
  obtain ⟨hb, hd, hi⟩ := s.p.afterAdd_frame s.a m
  rw [addToA_state]
  constructor <;> simp [hb, hd, hi]

theorem compareWith_changesOnly (r : Byte) (o : ReadOperand) : ChangesOnly [.n, .z, .c] s (compareWith r o s) := by
  obtain ⟨hv, hb, hd, hi⟩ := s.p.afterCompare_frame r (readOperand o s).1
  rw [compareWith_state]
  constructor <;> simp [hv, hb, hd, hi]

theorem testBits_changesOnly (v : Byte) : ChangesOnly [.n, .v, .z] s (testBits v s) := by
  constructor <;> simp [testBits, Flags.afterBit]

theorem modifyMemory_changesOnly (f : Byte → Byte) (m : MemOperand) :
    ChangesOnly [.memory, .n, .z] s (modifyMemory f m s) := by
  rw [modifyMemory_state]
  constructor <;> simp

theorem shiftOperand_changesOnly (op : Byte → Bool → Byte × Bool) (o : ShiftOperand) :
    ChangesOnly [o.written, .n, .z, .c] s (shiftOperand op o s) := by
  cases o <;> constructor <;> simp [shiftOperand, ShiftOperand.written, Flags.afterShift_frame]

theorem busWrite_changesOnly (ea : Addr) (v : Byte) : ChangesOnly [.memory] s (busWrite ea v s) := by
  constructor <;> simp

theorem branch_changesOnly (taken : Bool) (d : Byte) : ChangesOnly [.pc] s (branch taken d s) := by
  constructor <;> simp

theorem indirectTarget_setPc_changesOnly (p v : Addr) : ChangesOnly [.pc] s ((indirectTarget p s).2.setPc v) := by
  constructor <;> simp

theorem push_changesOnly (v : Byte) : ChangesOnly [.sp, .memory] s (push v s) := by
  constructor <;> simp

theorem push16_setPc_changesOnly (w v : Addr) : ChangesOnly [.pc, .sp, .memory] s ((push16 w s).setPc v) := by
  constructor <;> simp

theorem takeBreak_changesOnly : ChangesOnly [.pc, .sp, .b, .memory] s (takeBreak s) := by
  obtain ⟨ha, hx, hy, -, hp, hphase, -, hloaded, -, -⟩ := takeBreak_spec s
  constructor <;> simp [ha, hx, hy, hp, hphase, hloaded]

/-- Every instruction goes on, and changes only what its rule says it writes. -/
theorem exec_changesOnly (i : Instr) : ∃ t, exec i s = .next t ∧ ChangesOnly i.writes s t := by
  cases i <;> refine ⟨_, rfl, ?_⟩
  case adc o | sbc o => exact (addToA_changesOnly _ _).of_readOperand
  case cmp o | cpx o | cpy o => exact compareWith_changesOnly s _ o
  case and o | ora o | eor o => exact combineWithA_changesOnly s _ o
  case bit m => exact (testBits_changesOnly _ _).of_busRead
  case inc m | dec m => exact modifyMemory_changesOnly s _ m
  case asl o | lsr o | rol o | ror o => exact shiftOperand_changesOnly s _ o
  case bcc d | bcs d | beq d | bmi d | bne d | bpl d | bvc d | bvs d => exact branch_changesOnly s _ d
  case jmpInd p => exact indirectTarget_setPc_changesOnly s p _
  case jsr a => exact push16_setPc_changesOnly s _ a
  case pha | php => exact push_changesOnly s _
  case brk => exact takeBreak_changesOnly s
  case lda o => exact (transfer_setA_changesOnly (readOperand o s).2 _).of_readOperand
  case ldx o => exact (transfer_setX_changesOnly (readOperand o s).2 _).of_readOperand
  case ldy o => exact (transfer_setY_changesOnly (readOperand o s).2 _).of_readOperand
  case sta m | stx m | sty m => exact busWrite_changesOnly s _ _
  case txa | tya => exact transfer_setA_changesOnly s _
  case tax | tsx | inx | dex => exact transfer_setX_changesOnly s _
  case tay | iny | dey => exact transfer_setY_changesOnly s _
  case pla => constructor <;> simp [Instr.writes, transfer]
  case jmp | rts | plp | rti | txs | clc | sec | cli | sei | cld | sed | clv | nop | und =>
    constructor <;> simp [Instr.writes, returnFromBreak_spec]

end Frames

theorem changesOnly_of_exec {i : Instr} {s t : State} (h : exec i s = .next t) : ChangesOnly i.writes s t := by
  obtain ⟨u, hu, hframe⟩ := exec_changesOnly s i
  obtain rfl : u = t := Host.Outcome.next.inj (hu.symm.trans h)
  exact hframe

/-- Settles O47: the registers, the phase and the record of a load are fields of `ChangesOnly`. -/
theorem registersChangeOnlyByTheirWriters : Obligations.RegistersChangeOnlyByTheirWriters := by
  intro i s t h
  have hframe := changesOnly_of_exec h
  exact ⟨hframe.a, hframe.x, hframe.y, hframe.sp, hframe.pc, hframe.phase, hframe.loaded⟩

/-- Settles O48: the seven flags are fields of `ChangesOnly`. -/
theorem flagsChangeOnlyByTheirWriters : Obligations.FlagsChangeOnlyByTheirWriters := by
  intro i s t h
  have hframe := changesOnly_of_exec h
  exact ⟨hframe.c, hframe.z, hframe.n, hframe.i, hframe.d, hframe.b, hframe.v⟩

/-! ### I, D and B gate nothing (10_state.md R29 to R31) -/

/-- The state with other values of I, D and B. -/
def State.setIdb (i d b : Bool) (s : State) : State := s.setP { s.p with i := i, d := d, b := b }

section OtherValues

variable (s : State) (i d b : Bool)

theorem effectiveAddr_setIdb (m : MemOperand) : effectiveAddr m (s.setIdb i d b) = effectiveAddr m s :=
  effectiveAddr_setP s m _

theorem busRead_setIdb (ea : Addr) :
    busRead ea (s.setIdb i d b) = ((busRead ea s).1, (busRead ea s).2.setIdb i d b) := by
  simp only [State.setIdb, busRead_setP, busRead_p]

theorem busWrite_setIdb (ea : Addr) (v : Byte) : busWrite ea v (s.setIdb i d b) = (busWrite ea v s).setIdb i d b := by
  simp only [State.setIdb, busWrite_setP, busWrite_p]

theorem readOperand_setIdb (o : ReadOperand) :
    readOperand o (s.setIdb i d b) = ((readOperand o s).1, (readOperand o s).2.setIdb i d b) := by
  simp only [State.setIdb, readOperand_setP, readOperand_p]

theorem indirectTarget_setIdb (p : Addr) :
    indirectTarget p (s.setIdb i d b) = ((indirectTarget p s).1, (indirectTarget p s).2.setIdb i d b) := by
  simp only [indirectTarget, busRead_setIdb]

theorem push_setIdb (v : Byte) : push v (s.setIdb i d b) = (push v s).setIdb i d b := by
  simp only [State.setIdb, push_setP, push_p]

theorem push16_setIdb (w : Addr) : push16 w (s.setIdb i d b) = (push16 w s).setIdb i d b := by
  simp only [push16, push_setIdb]

/-- A load commutes with the change of the three flags if the transfer of the byte read does. -/
theorem loadRegister_setIdb {set : Byte → State → State} (o : ReadOperand)
    (hset : ∀ v t, transfer set v (t.setIdb i d b) = (transfer set v t).setIdb i d b) :
    loadRegister set o (s.setIdb i d b) = (loadRegister set o s).setIdb i d b := by
  simp only [loadRegister, readOperand_setIdb]
  exact hset _ _

theorem combineWithA_setIdb (f : Byte → Byte → Byte) (o : ReadOperand) :
    combineWithA f o (s.setIdb i d b) = (combineWithA f o s).setIdb i d b := by
  simp only [combineWithA, readOperand_setIdb]
  rfl

theorem addToA_setIdb (m : Byte) : addToA m (s.setIdb i d b) = (addToA m s).setIdb i d b := rfl

theorem compareWith_setIdb (r : Byte) (o : ReadOperand) :
    compareWith r o (s.setIdb i d b) = (compareWith r o s).setIdb i d b := by
  simp only [compareWith, readOperand_setIdb]
  rfl

theorem testBits_setIdb (v : Byte) : testBits v (s.setIdb i d b) = (testBits v s).setIdb i d b := rfl

theorem modifyMemory_setIdb (f : Byte → Byte) (m : MemOperand) :
    modifyMemory f m (s.setIdb i d b) = (modifyMemory f m s).setIdb i d b := by
  simp only [modifyMemory, effectiveAddr_setIdb, busRead_setIdb, busWrite_setIdb]
  rfl

theorem shiftOperand_setIdb (op : Byte → Bool → Byte × Bool) (o : ShiftOperand) :
    shiftOperand op o (s.setIdb i d b) = (shiftOperand op o s).setIdb i d b := by
  cases o with
  | acc => rfl
  | mem m =>
    simp only [shiftOperand, effectiveAddr_setIdb, busRead_setIdb, busWrite_setIdb]
    rfl

theorem branch_setIdb (taken : Bool) (e : Byte) :
    branch taken e (s.setIdb i d b) = (branch taken e s).setIdb i d b := by
  cases taken <;> rfl

/-- Run with other values of I, D and B, every instruction but PHP and BRK, which push the status byte, answers what it
would have answered, with the other values of those of the three flags that it does not write. -/
theorem exec_setIdb {instr : Instr} {t : State} (hphp : instr ≠ .php) (hbrk : instr ≠ .brk)
    (h : exec instr s = .next t) :
    exec instr (s.setIdb i d b) =
      .next
        (t.setIdb (if .i ∈ instr.writes then t.p.i else i) (if .d ∈ instr.writes then t.p.d else d)
          (if .b ∈ instr.writes then t.p.b else b)) := by
  cases instr <;> obtain rfl := Host.Outcome.next.inj h <;> refine congrArg Host.Outcome.next ?_
  case php => exact absurd rfl hphp
  case brk => exact absurd rfl hbrk
  case adc o | sbc o => rw [readOperand_setIdb]; exact addToA_setIdb _ i d b _
  case cmp o | cpx o | cpy o => exact compareWith_setIdb s i d b _ o
  case and o | ora o | eor o => exact combineWithA_setIdb s i d b _ o
  case bit m => rw [effectiveAddr_setIdb, busRead_setIdb]; exact testBits_setIdb _ i d b _
  case inc m | dec m => exact modifyMemory_setIdb s i d b _ m
  -- what a shift writes depends on its operand, so the list is read off only after the split
  case asl o | lsr o | rol o | ror o => cases o <;> exact shiftOperand_setIdb s i d b _ _
  case bcc e | bcs e | beq e | bmi e | bne e | bpl e | bvc e | bvs e => exact branch_setIdb s i d b _ e
  case jmpInd p => rw [indirectTarget_setIdb]; rfl
  case jsr a => exact congrArg (State.setPc a) (push16_setIdb s i d b _)
  case pha => exact push_setIdb s i d b _
  case lda o | ldx o | ldy o => exact loadRegister_setIdb s i d b o fun _ _ => rfl
  case sta m | stx m | sty m => rw [effectiveAddr_setIdb]; exact busWrite_setIdb s i d b _ _
  case inx | iny | dex | dey | tax | tay | txa | tya | tsx | txs | jmp | rts | pla | plp | rti => rfl
  case clc | sec | cli | sei | cld | sed | clv | nop | und => rfl

end OtherValues

/-- Settles O50: `exec_setIdb` with the record updates written out. -/
theorem interruptDecimalBreakFlagsGateNothing : Obligations.InterruptDecimalBreakFlagsGateNothing :=
  fun _ s _ fi fd fb hphp hbrk h => exec_setIdb s fi fd fb hphp hbrk h

end Sys2Proof.Machine
end

section
/-! PROOFS. The family of 20_memory.md: what an address selects (O9), reads after writes (O10), what a write and a read change
(O11, O12), and the canonical form of memory (O13). -/

open Sys2Proof

namespace Sys2Proof.Machine

/-! ### What an address selects (20_memory.md R52 to R58) -/

theorem inPpu_eq_true_iff {a : Addr} : inPpu a = true ↔ 0x2000 ≤ a.toNat ∧ a.toNat < 0x4000 := by simp [inPpu]

theorem inPpu_eq_false_iff {a : Addr} : inPpu a = false ↔ ¬(0x2000 ≤ a.toNat ∧ a.toNat < 0x4000) := by
  rw [← inPpu_eq_true_iff, Bool.not_eq_true]

theorem inPpu_of_ram {a : Addr} (h : a.toNat < 0x2000) : inPpu a = false := inPpu_eq_false_iff.2 (by omega)

/-- Masking with 0x07FF keeps the low eleven bits, which is the remainder by 2048 (R54). -/
theorem cellKey_ram {a : Addr} (h : a.toNat < 0x2000) : cellKey a = (a &&& 0x07FF).toNat := by
  rw [cellKey, if_pos h, BitVec.toNat_and]
  exact (Nat.and_two_pow_sub_one_eq_mod a.toNat 11).symm

theorem cellKey_above_ram {a : Addr} (h : 0x2000 ≤ a.toNat) : cellKey a = a.toNat := if_neg (Nat.not_lt.2 h)

theorem ppuRegister_toNat (a : Addr) : (ppuRegister a).toNat = a.toNat % 8 := BitVec.toNat_setWidth ..

theorem ppuRegister_eq_ofNat (a : Addr) : ppuRegister a = BitVec.ofNat 3 (a.toNat % 8) := by
  apply BitVec.eq_of_toNat_eq
  rw [ppuRegister_toNat, BitVec.toNat_ofNat, Nat.mod_mod]

/-- Settles O9: one lemma about the address decoder for each window. -/
theorem everyAddressSelectsOneTarget : Obligations.EveryAddressSelectsOneTarget := by
  refine fun a => ⟨fun h => ⟨inPpu_of_ram h, cellKey_ram h⟩, fun h => ⟨inPpu_eq_true_iff.2 h, ?_⟩,
    fun h => ⟨inPpu_eq_false_iff.2 (by omega), cellKey_above_ram (by omega)⟩, isCell_cellKey⟩
  -- the window begins at a multiple of 8
  rw [ppuRegister_toNat]
  omega

/-! ### Reads and writes (R60 to R62, R72) -/

/-- A read after a write, at any address of the same backing byte, gives the byte written. -/
theorem busRead_busWrite_same {s : State} {a b : Addr} (v : Byte) (hs : s.Inv) (ha : inPpu a = false)
    (hb : inPpu b = false) (hkey : cellKey b = cellKey a) : (busRead b (busWrite a v s)).1 = v := by
  rw [busRead_storage _ hb]
  exact busWrite_peek_same s v hs.1 ha hkey

/-- Settles O10: the mirrors of a RAM address have its key. -/
theorem readAfterWriteGivesTheByteWritten : Obligations.ReadAfterWriteGivesTheByteWritten := by
  refine fun s a v hs ha => ⟨busRead_busWrite_same v hs ha ha rfl, fun hram b hb hmirror => ?_⟩
  refine busRead_busWrite_same v hs ha (inPpu_of_ram hb) ?_
  rw [cellKey_ram hb, cellKey_ram hram, hmirror]

/-- Settles O11: in the window by `busWrite_ppu`, outside it by what a write leaves at its own key and at the others. -/
theorem writeChangesOneTarget : Obligations.WriteChangesOneTarget := by
  intro s a v hs
  constructor
  · intro hwindow
    rw [busWrite_ppu s v (inPpu_eq_true_iff.2 hwindow), ppuRegister_eq_ofNat]
    rfl
  · intro hout
    have ha : inPpu a = false := inPpu_eq_false_iff.2 hout
    refine ⟨by rw [busWrite_storage s v ha]; rfl, busWrite_peek_same s v hs.1 ha rfl, fun b _ hb => ?_⟩
    rw [sameByte_eq, decide_eq_false_iff_not] at hb
    exact busWrite_peek_other s v (.inr hb)

/-- Outside the PPU window a write made twice is a write made once. -/
theorem busWrite_busWrite {s : State} {a : Addr} (v : Byte) (hs : s.Inv) (ha : inPpu a = false) :
    busWrite a v (busWrite a v s) = busWrite a v s := by
  simp only [busWrite_storage _ v ha, State.setMem_mem, Memory.write_write v hs.1]
  rfl

/-- Settles O12: the rules of the bus, storage and port, for a read and for a write. -/
theorem storageIsIdempotentAndThePortSeesEveryAccess : Obligations.StorageIsIdempotentAndThePortSeesEveryAccess :=
  fun s _ v hs =>
    ⟨fun ha => ⟨busRead_storage s ha, busWrite_busWrite v hs ha⟩, fun ha => ⟨busRead_ppu s ha, busWrite_ppu s v ha⟩⟩

/-! ### One form for each contents (R52, R53; the form is the model's own) -/

/-- Every backing byte is the one some address outside the PPU window selects: the converse of `isCell_cellKey`. -/
theorem exists_cellKey_eq {k : Nat} (hk : isCell k = true) : ∃ a : Addr, inPpu a = false ∧ cellKey a = k := by
  simp only [isCell, Bool.or_eq_true, Bool.and_eq_true, decide_eq_true_eq] at hk
  have hto : (BitVec.ofNat 16 k).toNat = k := by rw [BitVec.toNat_ofNat, Nat.mod_eq_of_lt (by omega)]
  refine ⟨BitVec.ofNat 16 k, inPpu_eq_false_iff.2 (by omega), ?_⟩
  rw [cellKey, hto]
  split <;> omega

/-- In the canonical form a key that reads otherwise than unlisted is not below the first key. -/
theorem Memory.head_le_of_read_ne {lo j k : Nat} {w : Byte} {m : Memory} (hm : Memory.wfFrom lo ((j, w) :: m) = true)
    (hk : Memory.read ((j, w) :: m) k ≠ Config.memInit k) : j ≤ k := by
  have hfrom : Memory.wfFrom j ((j, w) :: m) = true :=
    (Memory.wfFrom_cons ..).2 ⟨le_refl j, ((Memory.wfFrom_cons ..).1 hm).2⟩
  exact Nat.not_lt.1 fun hlt => hk (Memory.read_below hfrom hlt)

@[simp] theorem Memory.read_head (k : Nat) (v : Byte) (m : Memory) : Memory.read ((k, v) :: m) k = v := by
  simp [Memory.read]

/-- What the rest of a canonical memory reads as: the first key is unlisted there, every other reads as before. -/
theorem Memory.read_tail {lo j : Nat} {w : Byte} {m : Memory} (hm : Memory.wfFrom lo ((j, w) :: m) = true) (k : Nat) :
    m.read k = if j = k then Config.memInit k else Memory.read ((j, w) :: m) k := by
  obtain ⟨-, -, -, htail⟩ := (Memory.wfFrom_cons ..).1 hm
  split
  · exact Memory.read_below htail (by omega)
  · rw [Memory.read, if_neg ‹_›]

/-- The canonical form is determined by its reads: where two canonical memories list a key first, both list the same one,
since each reads otherwise than unlisted at its own first key. -/
theorem Memory.eq_of_read_eq {lo lo' : Nat} {m m' : Memory} (hm : Memory.wfFrom lo m = true)
    (hm' : Memory.wfFrom lo' m' = true) (hread : ∀ k, isCell k = true → m.read k = m'.read k) : m = m' := by
  induction m generalizing m' lo lo' with
  | nil =>
    cases m' with
    | nil => rfl
    | cons d m' =>
      obtain ⟨j, w⟩ := d
      obtain ⟨-, hj, hw, -⟩ := (Memory.wfFrom_cons ..).1 hm'
      exact absurd ((Memory.read_head j w m').symm.trans (hread j hj).symm) hw
  | cons c m ih =>
    obtain ⟨i, v⟩ := c
    obtain ⟨-, hi, hv, htail⟩ := (Memory.wfFrom_cons ..).1 hm
    have hi_read := hread i hi
    rw [Memory.read_head] at hi_read
    cases m' with
    | nil => exact absurd hi_read hv
    | cons d m' =>
      obtain ⟨j, w⟩ := d
      obtain ⟨-, hj, hw, htail'⟩ := (Memory.wfFrom_cons ..).1 hm'
      have hj_read := hread j hj
      rw [Memory.read_head] at hj_read
      have hji : j ≤ i := Memory.head_le_of_read_ne hm' (hi_read ▸ hv)
      have hij : i ≤ j := Memory.head_le_of_read_ne hm (hj_read ▸ hw)
      obtain rfl : i = j := Nat.le_antisymm hij hji
      rw [Memory.read_head] at hi_read
      obtain rfl := hi_read
      have hrest : m = m' := ih htail htail' fun k hk => by rw [Memory.read_tail hm, Memory.read_tail hm', hread k hk]
      rw [hrest]

/-- Settles O13: the addresses outside the PPU window reach every backing byte, and the reads determine the form. -/
theorem memoriesThatReadAlikeAreEqual : Obligations.MemoriesThatReadAlikeAreEqual := by
  intro s t hs ht hkept
  refine Memory.eq_of_read_eq hs.1 ht.1 fun k hk => ?_
  obtain ⟨a, ha, rfl⟩ := exists_cellKey_eq hk
  exact (hkept a ha).symm

end Sys2Proof.Machine
end

section
/-! PROOFS. The family of 30_encoding.md: the decoder and the encoder undo each other (O4, O5), what decodes (O7), the undefined
opcodes (O8), words of the opcode map (O6) and how many ticks an instruction takes (O57). -/

namespace Sys2Proof

/-! ### The opcode map by operation and mode (30_encoding.md R85, R88) -/

/-- A row of the opcode map has a cell for exactly the modes it names. -/
theorem cellAt_isSome (m : Mode) (row : List (Mode × Byte × Nat)) :
    (cellAt m row).isSome = (row.map Prod.fst).contains m := by
  induction row with
  | nil => rfl
  | cons c row ih =>
    obtain ⟨n, c⟩ := c
    by_cases h : m = n
    · simp [cellAt, h]
    · simp [cellAt, h, ih]

/-- The instructions of the hardware are the terms that the opcode map has a cell for. -/
theorem Instr.cell_isSome (i : Instr) : i.cell.isSome = i.wf := by
  cases i with
  | und op =>
    by_cases h : op ∈ undefinedOpcodes <;> simp [Instr.cell, Instr.wf, h]
  | adc | sbc | cmp | cpx | cpy | and | ora | eor | bit | inc | dec | asl | lsr | rol | ror | lda | ldx | ldy | sta | stx
  | sty => exact cellAt_isSome _ _
  | _ => rfl

/-- Each byte of the list of R88 decodes to the undefined operation that carries it, whatever bytes follow it. -/
theorem decodeOpcode_undefined {op : Byte} (h : op ∈ undefinedOpcodes) (b1 b2 : Byte) : decodeOpcode op b1 b2 = .und op :=
  have hmap : undefinedOpcodes.map (decodeOpcode · b1 b2) = undefinedOpcodes.map .und := rfl
  List.map_inj_left.1 hmap op h

theorem Instr.und_cell {v : Byte} (h : v ∈ undefinedOpcodes) : (Instr.und v).cell = some (v, 2) := by
  simp [Instr.cell, h]

/-- An address is the word of its own two bytes, so operand bytes determine it (R83). -/
theorem word_of_bytes {a : Addr} {b1 b2 : Byte} (h : [b1, b2] = [lo8 a, hi8 a]) : a = word b2 b1 := by
  cases h
  exact (word_lo8_hi8 a).symm

/-- The operand bytes of an operand in memory leave only its mode open. -/
theorem MemOperand.of_bytes {m : MemOperand} {b1 b2 : Byte} (h : [b1, b2].take m.mode.operandBytes = m.bytes) :
    m = .zp b1 ∨ m = .zpx b1 ∨ m = .zpy b1 ∨ m = .abs (word b2 b1) ∨ m = .abx (word b2 b1) ∨ m = .aby (word b2 b1) ∨
      m = .izx b1 ∨ m = .izy b1 := by
  cases m with
  | abs a | abx a | aby a => simp [word_of_bytes h]
  | zp d | zpx d | zpy d | izx d | izy d => simp [List.head_eq_of_cons_eq h]

/-- The two maps of R85 agree: the opcode of an instruction's cell, with the instruction's operand bytes, decodes to the
instruction. -/
theorem decodeOpcode_of_cell {i : Instr} {op b1 b2 : Byte} {n : Nat} (h : i.cell = some (op, n))
    (hb : [b1, b2].take i.mode.operandBytes = i.operandBytes) : decodeOpcode op b1 b2 = i := by
  cases i with
  | und v =>
    have hv : v ∈ undefinedOpcodes := by simpa [Instr.wf, h] using (Instr.cell_isSome (.und v)).symm
    rw [Instr.und_cell hv] at h
    cases h
    exact decodeOpcode_undefined hv b1 b2
  | adc o | sbc o | cmp o | cpx o | cpy o | and o | ora o | eor o | lda o | ldx o | ldy o =>
    cases o with
    | imm v => cases h; cases hb; rfl
    | mem m => obtain rfl | rfl | rfl | rfl | rfl | rfl | rfl | rfl := MemOperand.of_bytes hb <;> cases h <;> rfl
  | asl o | lsr o | rol o | ror o =>
    cases o with
    | acc => cases h; rfl
    | mem m => obtain rfl | rfl | rfl | rfl | rfl | rfl | rfl | rfl := MemOperand.of_bytes hb <;> cases h <;> rfl
  | bit m | inc m | dec m | sta m | stx m | sty m =>
    obtain rfl | rfl | rfl | rfl | rfl | rfl | rfl | rfl := MemOperand.of_bytes hb <;> cases h <;> rfl
  | jmp a | jmpInd a | jsr a =>
    obtain rfl := word_of_bytes hb
    cases h
    rfl
  | _ => cases h; cases hb; rfl

/-! ### What an opcode decodes to -/

theorem decodeOpcode_cell (op b1 b2 : Byte) : ∃ n, (decodeOpcode op b1 b2).cell = some (op, n) := by
  have h := decodeOpcode_cell_opcode op
  rw [← decodeOpcode_cell_const op b1 b2, Option.map_eq_some_iff] at h
  obtain ⟨⟨_, n⟩, hc, rfl⟩ := h
  exact ⟨n, hc⟩

theorem decodeOpcode_wf (op b1 b2 : Byte) : (decodeOpcode op b1 b2).wf = true := by
  obtain ⟨n, hc⟩ := decodeOpcode_cell op b1 b2
  rw [← Instr.cell_isSome, hc]
  rfl

/-- An opcode decodes with the bytes its mode reads, and no other bytes matter (R82). -/
theorem decodeOpcode_congr {op b1 b2 c1 c2 : Byte}
    (h : [b1, b2].take (operandCount op) = [c1, c2].take (operandCount op)) :
    decodeOpcode op b1 b2 = decodeOpcode op c1 c2 := by
  obtain ⟨n, hc⟩ := decodeOpcode_cell op c1 c2
  refine decodeOpcode_of_cell hc ?_
  rw [decodeOpcode_mode, decodeOpcode_operandBytes]
  exact h

/-- Up to two bytes are the first of some pair. -/
theorem exists_take_pair {l : List Byte} {n : Nat} (hn : n ≤ 2) (hl : l.length = n) : ∃ b1 b2, [b1, b2].take n = l := by
  subst hl
  match l with
  | [] => exact ⟨0, 0, rfl⟩
  | [b1] => exact ⟨b1, 0, rfl⟩
  | [b1, b2] => exact ⟨b1, b2, rfl⟩
  | _ :: _ :: _ :: _ => simp at hn

theorem Mode.operandBytes_le (m : Mode) : m.operandBytes ≤ 2 := by cases m <;> decide

/-- Every instruction of the hardware has an opcode that decodes to it. -/
theorem exists_decodeOpcode {i : Instr} (h : i.wf = true) : ∃ op b1 b2, decodeOpcode op b1 b2 = i := by
  rw [← Instr.cell_isSome, Option.isSome_iff_exists] at h
  obtain ⟨⟨op, n⟩, hc⟩ := h
  obtain ⟨b1, b2, hb⟩ := exists_take_pair i.mode.operandBytes_le i.operandBytes_length
  exact ⟨op, b1, b2, decodeOpcode_of_cell hc hb⟩

/-! ### Decoding a byte list (R80, R81, R90) -/

/-- An opcode and the operand bytes its mode reads decode, and the bytes after them are left. -/
theorem decode_opcode_append (op b1 b2 : Byte) (rest : List Byte) :
    decode (op :: ([b1, b2].take (operandCount op) ++ rest)) = .ok (decodeOpcode op b1 b2, rest) := by
  have hle := operandCount_le op
  obtain h | h | h : operandCount op = 0 ∨ operandCount op = 1 ∨ operandCount op = 2 := by omega
  · have hb : decodeOpcode op b1 b2 = decodeOpcode op 0 0 := decodeOpcode_congr (by rw [h]; rfl)
    rw [h, hb]
    exact decode_of_zero h rest
  · have hb : decodeOpcode op b1 b2 = decodeOpcode op b1 0 := decodeOpcode_congr (by rw [h]; rfl)
    rw [h, hb]
    exact decode_of_one h b1 rest
  · rw [h]
    exact decode_of_two h b1 b2 rest

/-- With its operand bytes there an opcode decodes, and leaves the bytes after them. -/
theorem exists_decode_of_le {op : Byte} {rest : List Byte} (h : operandCount op ≤ rest.length) :
    ∃ b1 b2, rest.take (operandCount op) = [b1, b2].take (operandCount op) ∧
      decode (op :: rest) = .ok (decodeOpcode op b1 b2, rest.drop (operandCount op)) := by
  obtain ⟨b1, b2, hb⟩ := exists_take_pair (operandCount_le op) (List.length_take_of_le h)
  have hd := decode_opcode_append op b1 b2 (rest.drop (operandCount op))
  rw [hb, List.take_append_drop] at hd
  exact ⟨b1, b2, hb.symm, hd⟩

theorem operandCount_le_of_decode {op : Byte} {rest r : List Byte} {i : Instr} (h : decode (op :: rest) = .ok (i, r)) :
    operandCount op ≤ rest.length := by
  by_contra hlt
  rw [decode_truncated (Nat.not_le.1 hlt)] at h
  cases h

/-- Settles O4: a well-formed instruction is what some opcode decodes to, and its encoding is that opcode with the bytes its
mode reads. -/
theorem decodeAfterEncodeIsIdentity : Obligations.DecodeAfterEncodeIsIdentity := by
  intro i rest hwf
  obtain ⟨op, b1, b2, rfl⟩ := exists_decodeOpcode hwf
  rw [encode_decodeOpcode]
  exact decode_opcode_append op b1 b2 rest

/-- Settles O5: what decodes is its opcode's instruction, whose encoding takes back the bytes that decoding took off. -/
theorem encodeAfterDecodeIsIdentity : Obligations.EncodeAfterDecodeIsIdentity := by
  intro bs i r h
  cases bs with
  | nil => cases h
  | cons op rest =>
    obtain ⟨b1, b2, htake, hd⟩ := exists_decode_of_le (operandCount_le_of_decode h)
    rw [hd] at h
    cases h
    refine ⟨decodeOpcode_wf op b1 b2, ?_⟩
    rw [encode_decodeOpcode, ← htake, List.cons_append, List.take_append_drop]

/-- Settles O7: enough bytes decode by `exists_decode_of_le`, too few by `decode_truncated` do not. -/
theorem decodingFailsOnlyForMissingBytes : Obligations.DecodingFailsOnlyForMissingBytes := by
  refine fun op rest => ⟨fun ⟨i, r, h⟩ => operandCount_le_of_decode h, fun h => ?_⟩
  obtain ⟨b1, b2, -, hd⟩ := exists_decode_of_le h
  exact ⟨_, _, hd⟩

/-- Settles O8: an undefined operation has the opcode it carries, and its byte is listed because it is an instruction. -/
theorem undefinedOpcodesAreTheListedBytes : Obligations.UndefinedOpcodesAreTheListedBytes := by
  refine ⟨rfl, fun op b1 b2 => ⟨fun ⟨v, hv⟩ => ?_, fun h => ⟨op, decodeOpcode_undefined h b1 b2⟩⟩,
    fun op h => ⟨decodeOpcode_undefined h 0 0, rfl, by rw [Instr.baseCycles, Instr.und_cell h]⟩⟩
  obtain ⟨n, hc⟩ := decodeOpcode_cell op b1 b2
  have hmem : v ∈ undefinedOpcodes := by simpa [hv, Instr.wf] using decodeOpcode_wf op b1 b2
  rw [hv, Instr.und_cell hmem] at hc
  cases hc
  exact hmem

/-- Settles O6: each word has as many operand bytes as its opcode reads. -/
theorem wordsOfTheOpcodeMapDecode : Obligations.WordsOfTheOpcodeMapDecode :=
  ⟨decode_of_zero rfl _, decode_of_zero rfl _, decode_of_one rfl _ _, decode_of_one rfl _ _, decode_of_one rfl _ _,
    decode_of_two rfl _ _ _, decode_of_two rfl _ _ _, decode_of_one rfl _ _, decode_of_zero rfl _⟩

end Sys2Proof

namespace Sys2Proof.Machine

/-! ### The ticks of an instruction (R84, R87; 70_reset_and_hazards.md R269) -/

theorem baseCycles_undefined {op : Byte} (h : op ∈ undefinedOpcodes) : baseCycles op = 2 := by
  rw [baseCycles, decodeOpcode_undefined h, Instr.baseCycles, Instr.und_cell h]

/-- Only a branch has a penalty of 2, and a branch has 2 base cycles, so the penalty adds at most one tick to seven. -/
theorem baseCycles_add_penalty_le (op : Byte) (s : State) :
    baseCycles op + penalty (fetchOperands op s).1 (fetchOperands op s).2 ≤ 8 := by
  by_cases hrel : (decodeOpcode op 0 0).mode = .rel
  · have hbase := baseCycles_rel op hrel
    have hpen := penalty_le (fetchOperands op s).2 (fetchOperands op s).1
    omega
  · have hbase := (baseCycles_bounds op).2
    have hpen := penalty_le_one (fetchOperands op s).2 (fetchOperands op s).1 (by rwa [fetchOperands_mode])
    omega

theorem ticksLeft_of_fetch {s : State} (h : s.phase = .fetch) :
    ticksLeft s =
      baseCycles (fetchByte s).1 +
        penalty (fetchOperands (fetchByte s).1 (fetchByte s).2).1 (fetchOperands (fetchByte s).1 (fetchByte s).2).2 := by
  simp only [ticksLeft, h]

/-- Settles O57: the base counts are read off the opcode map, and the bounds are those of base and penalty. -/
theorem instructionsTakeTwoToEightTicks : Obligations.InstructionsTakeTwoToEightTicks := by
  refine ⟨by decide, by decide, by decide, by decide, by decide, by decide, fun op h => baseCycles_undefined h,
    fun s hs => ?_⟩
  obtain ⟨hlow, hhigh⟩ := baseCycles_bounds (fetchByte s).1
  rw [ticksLeft_of_fetch hs]
  exact ⟨hlow, hhigh, by omega, baseCycles_add_penalty_le _ _⟩

end Sys2Proof.Machine
end

section
/-! PROOFS. The family of 40_fetch_decode_addressing.md: the step (O51, O1), the fetch (O2, O3), the operands (O14, O15, O16,
O17), the page-crossing penalty (O58), and what the stack and memory keep (O38, O49). -/

open Sys2Proof

namespace Sys2Proof.Machine

/-! ### Every step keeps the invariant (R100; 70_reset_and_hazards.md R262 to R266) -/

/-- Every instruction keeps the canonical form of memory: the writers by the rule of the shape they share, every other
instruction because it leaves memory as it was. -/
theorem exec_wf {i : Instr} {s t : State} (hs : s.mem.wf = true) (h : exec i s = .next t) : t.mem.wf = true := by
  cases i with
  | inc m | dec m => cases h; exact modifyMemory_wf s _ m hs
  | asl o | lsr o | rol o | ror o => cases h; exact shiftOperand_wf s _ o hs
  | sta m | stx m | sty m => cases h; exact busWrite_wf s _ _ hs
  | jsr a => cases h; exact push16_wf s _ hs
  | pha | php => cases h; exact push_wf s _ hs
  | brk => cases h; exact takeBreak_wf s hs
  | _ =>
    rw [(changesOnly_of_exec h).mem (by simp [Instr.writes])]
    exact hs

@[simp] theorem fetchOperands_mem (op : Byte) (s : State) : (fetchOperands op s).2.mem = s.mem := by
  rw [fetchOperands_state]

@[simp] theorem fetchOperands_phase (op : Byte) (s : State) : (fetchOperands op s).2.phase = s.phase := by
  rw [fetchOperands_state]

/-- An opcode run from a boundary ends at a boundary with memory in its canonical form. -/
theorem runOpcode_inv {op : Byte} {s t : State} (hmem : s.mem.wf = true) (hphase : s.phase = .fetch)
    (h : runOpcode op s = .next t) : t.Inv ∧ t.phase = .fetch := by
  have hwf : t.mem.wf = true := exec_wf (by rwa [fetchOperands_mem]) h
  have hfetch : t.phase = .fetch := by rw [(changesOnly_of_exec h).phase, fetchOperands_phase, hphase]
  exact ⟨⟨hwf, by rw [hfetch]; rfl⟩, hfetch⟩

theorem runToBoundary_of_fetch {s : State} (h : s.phase = .fetch) :
    runToBoundary s = runOpcode (fetchByte s).1 (fetchByte s).2 := by simp only [runToBoundary, h]

theorem runToBoundary_of_execute {s : State} {op : Byte} {n : Nat} (h : s.phase = .execute op n) :
    runToBoundary s = runOpcode op (s.setPhase .fetch) := by simp only [runToBoundary, h]

theorem runToBoundary_of_delay {s : State} {m : Nat} (h : s.phase = .delay m) :
    runToBoundary s = .next (s.setPhase .fetch) := by simp only [runToBoundary, h]

/-- Settles O51: from a boundary or with an opcode latched by `runOpcode_inv`; the end of a delay leaves memory alone. -/
theorem stepKeepsTheInvariant : Obligations.StepKeepsTheInvariant := by
  intro s t hs hstep
  obtain ⟨hmem, -⟩ := hs
  obtain ⟨-, hrun⟩ := whenLoaded_next s hstep
  cases hphase : s.phase with
  | fetch =>
    rw [runToBoundary_of_fetch hphase] at hrun
    exact runOpcode_inv (by simpa using hmem) (by simpa using hphase) hrun
  | execute op n =>
    rw [runToBoundary_of_execute hphase] at hrun
    exact runOpcode_inv (s := s.setPhase .fetch) hmem rfl hrun
  | delay m =>
    rw [runToBoundary_of_delay hphase] at hrun
    cases hrun
    exact ⟨⟨hmem, rfl⟩, rfl⟩

/-! ### The fetch (R100, R101) -/

theorem fetchBytes_succ (n : Nat) (s : State) :
    fetchBytes (n + 1) s = ((fetchByte s).1 :: (fetchBytes n (fetchByte s).2).1, (fetchBytes n (fetchByte s).2).2) := rfl

/-- Settles O2: by induction on the number of bytes, each fetched at the PC the one before it left. -/
theorem fetchReadsTheBytesAtPc : Obligations.FetchReadsTheBytesAtPc := by
  intro n
  induction n with
  | zero => intro s _; simp [fetchBytes]
  | succ n ih =>
    intro s h
    have hfirst : inPpu s.pc = false := by simpa using h 0 (Nat.succ_pos n)
    have hrest : ∀ k < n, inPpu ((s.setPc (s.pc + 1)).pc + BitVec.ofNat 16 k) = false := fun k hk => by
      rw [State.setPc_pc, succ_add_ofNat]
      exact h (k + 1) (Nat.succ_lt_succ hk)
    rw [fetchBytes_succ, fetchByte_storage s hfirst, ih _ hrest, List.range_succ_eq_map]
    simp only [State.setPc_pc, succ_add_ofNat, List.map_cons, List.map_map, BitVec.add_zero]
    rfl

/-- Settles O3: a fetch is a bus read at PC, and in the window the port answers it. -/
theorem fetchFromThePpuWindowReceivesPpuRead : Obligations.FetchFromThePpuWindowReceivesPpuRead := by
  intro s hlow hhigh
  rw [fetchByte, busRead_ppu s (inPpu_eq_true_iff.2 ⟨hlow, hhigh⟩), ppuRegister_eq_ofNat]
  rfl

/-- The decoder reads the operand bytes that the step fetches: in the two bytes after an opcode it finds the instruction
fetched, and the fetch takes as many of them as the opcode's mode has. -/
theorem decode_fetchBytes (op : Byte) (s : State) :
    (∃ rest, decode (op :: (fetchBytes 2 s).1) = .ok ((fetchOperands op s).1, rest)) ∧
      (fetchOperands op s).2 = (fetchBytes (operandCount op) s).2 := by
  have hle := operandCount_le op
  obtain hn | hn | hn : operandCount op = 0 ∨ operandCount op = 1 ∨ operandCount op = 2 := by omega
  · simp only [fetchOperands, hn]
    exact ⟨⟨_, decode_of_zero hn _⟩, rfl⟩
  · simp only [fetchOperands, hn]
    exact ⟨⟨_, decode_of_one hn _ _⟩, rfl⟩
  · simp only [fetchOperands, hn]
    exact ⟨⟨_, decode_of_two hn _ _ _⟩, rfl⟩

/-- The length of the instruction fetched: its opcode and the operand bytes of its mode. -/
theorem fetchOperands_length (op : Byte) (s : State) : (fetchOperands op s).1.length = operandCount op + 1 := by
  rw [Instr.length, fetchOperands_mode, Nat.add_comm]
  rfl

/-- Settles O1: the first byte delivered is the opcode, and by `decode_fetchBytes` the step fetches what decodes after it. -/
theorem stepRunsTheDecodedInstruction : Obligations.StepRunsTheDecodedInstruction := by
  intro s i rest hloaded hphase hdecode
  obtain ⟨⟨_, hfetched⟩, hstate⟩ := decode_fetchBytes (fetchByte s).1 (fetchByte s).2
  rw [fetchBytes_succ, hfetched] at hdecode
  cases hdecode
  rw [step, whenLoaded_eq s _ hloaded, runToBoundary_of_fetch hphase, runOpcode, hstate, fetchOperands_length,
    fetchBytes_succ]

/-! ### Operands (R105 to R116) -/

/-- Settles O14: a memory operand is read over the bus. -/
theorem dataReadDeliversTheOperand : Obligations.DataReadDeliversTheOperand :=
  fun s _ _ => ⟨rfl, busRead_storage s, busRead_ppu s⟩

/-- Settles O15: the index is added in a byte, which is extended afterwards. -/
theorem zeroPageAddressesStayInTheZeroPage : Obligations.ZeroPageAddressesStayInTheZeroPage := by
  intro s d
  refine ⟨zext_toNat d, ?_, ?_⟩
  · rw [effectiveAddr, zext_toNat, BitVec.toNat_add]
  · rw [effectiveAddr, zext_toNat, BitVec.toNat_add]

theorem add_zext_toNat (a : Addr) (b : Byte) : (a + zext b).toNat = (a.toNat + b.toNat) % 65536 := by
  rw [BitVec.toNat_add, zext_toNat]

/-- Settles O16: an index byte is added in the sixteen bits of the address. -/
theorem absoluteAddressesWrapAt65536 : Obligations.AbsoluteAddressesWrapAt65536 :=
  fun s a => ⟨rfl, add_zext_toNat a s.x, add_zext_toNat a s.y⟩

theorem word_toNat (h l : Byte) : (word h l).toNat = 256 * h.toNat + l.toNat := by
  rw [word, BitVec.toNat_append, ← Nat.shiftLeft_add_eq_or_of_lt l.isLt, Nat.shiftLeft_eq, Nat.mul_comm]

theorem zext_eq_ofNat (b : Byte) : zext b = BitVec.ofNat 16 b.toNat := by
  have := b.isLt
  apply BitVec.eq_of_toNat_eq
  rw [zext_toNat, BitVec.toNat_ofNat, Nat.mod_eq_of_lt (by omega)]

/-- Both bytes of a pointer are in the zero page: the address of the second is taken modulo 256 (D10). -/
theorem zeroPagePointer_toNat (s : State) (z : Byte) :
    (s.zeroPagePointer z).toNat =
      256 * (s.peek (BitVec.ofNat 16 ((z.toNat + 1) % 256))).toNat + (s.peek (BitVec.ofNat 16 z.toNat)).toNat := by
  rw [State.zeroPagePointer, word_toNat, zext_eq_ofNat, zext_eq_ofNat, BitVec.toNat_add]
  rfl

/-- Settles O17: both modes read the pointer of `zeroPagePointer_toNat`. -/
theorem pointersAreReadInsideTheZeroPage : Obligations.PointersAreReadInsideTheZeroPage := by
  intro s d
  constructor
  · rw [effectiveAddr, zeroPagePointer_toNat, BitVec.toNat_add, Nat.mod_add_mod]
  · rw [effectiveAddr, add_zext_toNat, zeroPagePointer_toNat]

/-! ### The page-crossing penalty (R111, R112, R115, R118) -/

theorem hi8_toNat (a : Addr) : (hi8 a).toNat = a.toNat / 256 := by
  have := a.isLt
  rw [hi8, BitVec.extractLsb'_toNat, Nat.shiftRight_eq_div_pow]
  omega

/-- Adding an index crosses a page exactly when the low byte carries out. -/
theorem crossed_add_zext (base : Addr) (index : Byte) :
    crossed base (base + zext index) = decide (255 < base.toNat % 256 + index.toNat) := by
  have hbase := base.isLt
  have hindex := index.isLt
  rw [crossed, Bool.eq_iff_iff, bne_iff_ne, decide_eq_true_iff, ne_eq, BitVec.toNat_eq, hi8_toNat, hi8_toNat,
    add_zext_toNat]
  omega

theorem zeroPagePointer_low (s : State) (z : Byte) : (s.zeroPagePointer z).toNat % 256 = (s.peek (zext z)).toNat := by
  rw [State.zeroPagePointer, word_toNat, Nat.mul_add_mod, Nat.mod_eq_of_lt (BitVec.isLt _)]

theorem pagePenalty_of_crosses {m : MemOperand} {s : State} {p : Prop} [Decidable p] (h : operandCrosses m s = decide p) :
    pagePenalty m s = if p then 1 else 0 := by
  rw [pagePenalty, h]
  split <;> simp [*]

theorem pagePenalty_of_mode {m : MemOperand} (s : State) (habx : m.mode ≠ .abx) (haby : m.mode ≠ .aby)
    (hizy : m.mode ≠ .izy) : pagePenalty m s = 0 := by
  cases m with
  | abx a => exact absurd rfl habx
  | aby a => exact absurd rfl haby
  | izy d => exact absurd rfl hizy
  | zp d | zpx d | zpy d | abs a | izx d => rfl

/-- Each of the 21 operations with an operand in memory has that operand's penalty. -/
theorem penalty_memoryForm {f : MemOperand → Instr} (h : f ∈ memoryForms) (m : MemOperand) (s : State) :
    penalty (f m) s = pagePenalty m s := by
  have hmap : memoryForms.map (fun f => penalty (f m) s) = List.replicate 21 (pagePenalty m s) := rfl
  exact List.eq_of_mem_replicate (hmap ▸ List.mem_map_of_mem h)

theorem penalty_of_mode {i : Instr} (s : State) (habx : i.mode ≠ .abx) (haby : i.mode ≠ .aby) (hizy : i.mode ≠ .izy)
    (hrel : i.mode ≠ .rel) : penalty i s = 0 := by
  cases i with
  | adc o | sbc o | cmp o | cpx o | cpy o | and o | ora o | eor o | lda o | ldx o | ldy o =>
    cases o with
    | imm v => rfl
    | mem m => exact pagePenalty_of_mode s habx haby hizy
  | asl o | lsr o | rol o | ror o =>
    cases o with
    | acc => rfl
    | mem m => exact pagePenalty_of_mode s habx haby hizy
  | bit m | inc m | dec m | sta m | stx m | sty m => exact pagePenalty_of_mode s habx haby hizy
  | bcc d | bcs d | beq d | bmi d | bne d | bpl d | bvc d | bvs d => exact absurd rfl hrel
  | _ => rfl

/-- Settles O58: the penalty is that of the operand, whose base plus index crosses a page when the low byte carries out. -/
theorem pageCrossingsCostOneTick : Obligations.PageCrossingsCostOneTick := by
  refine ⟨fun s d a f hf => ?_, fun s i => penalty_of_mode s⟩
  simp only [penalty_memoryForm hf]
  refine ⟨pagePenalty_of_crosses (crossed_add_zext a s.x), pagePenalty_of_crosses (crossed_add_zext a s.y),
    pagePenalty_of_crosses ?_⟩
  rw [← zeroPagePointer_low]
  exact crossed_add_zext (s.zeroPagePointer d) s.y

/-! ### The stack and memory (R117, R120 to R123) -/

/-- Settles O38: the register that PLA or PLP writes is no input of the pull, which by `pull_push` undoes the push. -/
theorem pullUndoesPush : Obligations.PullUndoesPush := by
  intro s t u v q hs ht hu
  obtain rfl : push s.a s = t := Host.Outcome.next.inj ht
  obtain rfl : push s.p.toByte s = u := Host.Outcome.next.inj hu
  obtain ⟨ha, hsp⟩ := pull_push s s.a hs.1
  obtain ⟨hp, hsp'⟩ := pull_push s s.p.toByte hs.1
  exact ⟨⟨_, rfl, ha, hsp⟩, ⟨_, rfl, (congrArg Flags.ofByte hp).trans s.p.ofByte_toByte, hsp'⟩⟩

/-- A push leaves every byte outside the stack page as it was. -/
theorem push_peek_off_page {b : Addr} (h : ∀ k : Byte, sameByte b (stackAddr k) = false) (v : Byte) (s : State) :
    (push v s).peek b = s.peek b := by
  have hkey := h s.sp
  rw [sameByte_eq, cellKey_stackAddr, decide_eq_false_iff_not] at hkey
  exact push_peek_other s v hkey

theorem push16_peek_off_page {b : Addr} (h : ∀ k : Byte, sameByte b (stackAddr k) = false) (w : Addr) (s : State) :
    (push16 w s).peek b = s.peek b := by
  rw [push16, push_peek_off_page h, push_peek_off_page h]

/-- Settles O49: the writes to memory are the field `mem` of `ChangesOnly`; what pushes does so by `push` alone. -/
theorem memoryChangesOnlyByItsWriters : Obligations.MemoryChangesOnlyByItsWriters := by
  intro i s t h
  refine ⟨fun hmem b _ => ?_, fun hpush b _ hoff => ?_⟩
  · rw [State.peek, (changesOnly_of_exec h).mem hmem, State.peek]
  · obtain rfl | rfl | rfl | ⟨a, rfl⟩ := hpush <;> cases h
    · exact push_peek_off_page hoff s.a s
    · exact push_peek_off_page hoff s.p.toByte s
    · exact (push_peek_off_page hoff s.p.toByte _).trans (push16_peek_off_page hoff s.pc s)
    · exact push16_peek_off_page hoff (s.pc - 1) s

end Sys2Proof.Machine
end

section
/-! PROOFS. The family of 41_arithmetic_compare.md: ADC (O22) and SBC (O23), which share one addition, and the compares
(O24). -/

open Sys2Proof

namespace Sys2Proof.Machine

/-! ### The sum, the carry and the overflow as numbers (41_arithmetic_compare.md R130) -/

theorem addResult_toNat (a m : Byte) (c : Bool) : (addResult a m c).toNat = addTotal a m c % 256 := BitVec.toNat_ofNat ..

/-- Bit 8 of the sum, which has nine bits, says that it is no byte. -/
theorem addCarry_eq (a m : Byte) (c : Bool) : addCarry a m c = decide (255 < addTotal a m c) := by
  have hlt : addTotal a m c < 512 := by
    have := a.isLt
    have := m.isLt
    have := c.toNat_le
    unfold addTotal
    omega
  rw [addCarry, Nat.testBit_eq_decide_div_mod_eq, decide_eq_decide]
  omega

/-- The mask 0x80 leaves the sign bit. -/
theorem and_0x80_bne_zero (x : Byte) : ((x &&& 0x80) != 0) = x.msb := by
  rw [show (0x80 : Byte) = BitVec.twoPow 8 7 from rfl, BitVec.and_twoPow, BitVec.msb_eq_getLsbD_last]
  cases x.getLsbD 7 <;> rfl

/-- The XOR formula says that the result has neither operand's sign. -/
theorem addOverflow_iff_msb_ne (a m r : Byte) : addOverflow a m r = true ↔ a.msb ≠ r.msb ∧ m.msb ≠ r.msb := by
  rw [addOverflow, and_0x80_bne_zero, BitVec.msb_and, BitVec.msb_xor, BitVec.msb_xor, Bool.and_eq_true,
    Bool.xor_iff_ne, Bool.xor_iff_ne]

/-- The XOR formula says that the signed sum is outside the range of a byte: a byte from 128 up is negative, and its signed
value is 256 less. -/
theorem addOverflow_iff (a m : Byte) (c : Bool) :
    addOverflow a m (addResult a m c) = true ↔
      ¬(-128 ≤ a.toInt + m.toInt + (c.toNat : Int) ∧ a.toInt + m.toInt + (c.toNat : Int) ≤ 127) := by
  have ha := a.isLt
  have hm := m.isLt
  have hc := c.toNat_le
  rw [addOverflow_iff_msb_ne, BitVec.toInt_eq_msb_cond, BitVec.toInt_eq_msb_cond]
  simp only [BitVec.msb_eq_decide, addResult_toNat, addTotal, ne_eq, decide_eq_decide, decide_eq_true_eq]
  split <;> split <;> omega

/-! ### The one's complement of the operand (R131, D16) -/

theorem xor_0xFF_toNat (m : Byte) : (m ^^^ 0xFF).toNat = 255 - m.toNat := by
  rw [show (0xFF : Byte) = BitVec.allOnes 8 from rfl, BitVec.xor_allOnes, BitVec.toNat_not]

theorem xor_0xFF_toInt (m : Byte) : (m ^^^ 0xFF).toInt = -m.toInt - 1 := by
  have hm := m.isLt
  rw [BitVec.toInt_eq_toNat_cond, BitVec.toInt_eq_toNat_cond, xor_0xFF_toNat]
  split <;> split <;> omega

/-! ### Adding to A -/

@[simp] theorem addToA_a (s : State) (m : Byte) : (addToA m s).a = addResult s.a m s.p.c := rfl
@[simp] theorem addToA_c (s : State) (m : Byte) : (addToA m s).p.c = addCarry s.a m s.p.c := rfl
@[simp] theorem addToA_v (s : State) (m : Byte) : (addToA m s).p.v = addOverflow s.a m (addResult s.a m s.p.c) := rfl

/-- An addition after a data read changes A, V and C, N and Z as the new A says, and the record of the port. -/
theorem addToA_readOperand_frame (s : State) (o : ReadOperand) (m : Byte) :
    let t := addToA m (readOperand o s).2
    t = { s with a := t.a, p := { signZero t.a s.p with v := t.p.v, c := t.p.c }, ppu := (readOperand o s).2.ppu } := by
  rw [readOperand_state]
  simp only [signZero_eq]
  rfl

/-- Settles O22: the sum, its carry and its overflow are those of the unsigned and of the signed numbers. -/
theorem adcAddsInBinary : Obligations.AdcAddsInBinary := by
  intro o s m total signed
  refine ⟨addToA m (readOperand o s).2, rfl, ?_, ?_, ?_, ?_, addToA_readOperand_frame s o m⟩
  · rw [addToA_a, readOperand_a, readOperand_p]
    exact addResult_toNat s.a m s.p.c
  · rw [addToA_c, readOperand_a, readOperand_p]
    exact addCarry_eq s.a m s.p.c
  · rw [addToA_v, addToA_a, readOperand_a]
    rfl
  · rw [addToA_v, readOperand_a, readOperand_p]
    exact addOverflow_iff s.a m s.p.c

/-- Settles O23: the operand's one's complement is 255 less the operand, so its sum with A and the carry is the difference
plus 256. -/
theorem sbcSubtractsWithBorrow : Obligations.SbcSubtractsWithBorrow := by
  intro o s m difference signed
  have hm := m.isLt
  have htotal : (addTotal s.a (m ^^^ 0xFF) s.p.c : Int) = difference + 256 := by
    rw [addTotal, xor_0xFF_toNat]
    omega
  have hsigned : s.a.toInt + (m ^^^ 0xFF).toInt + (s.p.c.toNat : Int) = signed := by
    rw [xor_0xFF_toInt]
    omega
  refine ⟨addToA (m ^^^ 0xFF) (readOperand o s).2, rfl, ?_, ?_, ?_, addToA_readOperand_frame s o _⟩
  · rw [addToA_a, readOperand_a, readOperand_p, addResult_toNat]
    omega
  · rw [addToA_c, readOperand_a, readOperand_p, addCarry_eq, decide_eq_decide]
    omega
  · rw [addToA_v, readOperand_a, readOperand_p, addOverflow_iff, hsigned]

/-! ### Compare (R132 to R134) -/

/-- The difference modulo 256 is zero exactly when the two bytes are equal. -/
theorem Flags.afterCompare_eq (r m : Byte) (p : Flags) :
    p.afterCompare r m =
      { p with
        c := decide (m.toNat ≤ r.toNat)
        z := decide (r = m)
        n := decide (128 ≤ (r.toNat + 256 - m.toNat) % 256) } := by
  have hr := r.isLt
  have hm := m.isLt
  have hn : (r - m).toNat = (r.toNat + 256 - m.toNat) % 256 := by
    rw [BitVec.toNat_sub]
    omega
  have hz : (r.toNat + 256 - m.toNat) % 256 = 0 ↔ r = m := by
    rw [BitVec.toNat_eq]
    omega
  rw [Flags.afterCompare, ← signZero_eq]
  simp only [signZero, hn, hz]

/-- Settles O24: the three compares are one operation on the register that each names. -/
theorem comparesSetCarryZeroSign : Obligations.ComparesSetCarryZeroSign := by
  intro o s m ir hir
  have hexec : exec ir.1 s = .next (compareWith ir.2 o s) := by
    simp only [List.mem_cons, List.not_mem_nil, or_false] at hir
    rcases hir with rfl | rfl | rfl <;> rfl
  rw [hexec, compareWith_state, Flags.afterCompare_eq]

end Sys2Proof.Machine
end

section
/-! PROOFS. The family of 42_logic_incdec.md: AND, ORA and EOR (O25), BIT (O26), INC and DEC (O27), and the index registers by
one (O28). -/

open Sys2Proof

namespace Sys2Proof.Machine

/-! ### Logic (42_logic_incdec.md R140 to R143) -/

/-- An operation on A and an operand that works bit by bit gives such an A; N, Z and the record of the port follow. -/
theorem combineWithA_bitwise {f : Byte → Byte → Byte} {g : Bool → Bool → Bool}
    (h : ∀ a m k, (f a m).getLsbD k = g (a.getLsbD k) (m.getLsbD k)) (o : ReadOperand) (s : State) :
    let t := combineWithA f o s
    (∀ k, t.a.getLsbD k = g (s.a.getLsbD k) ((readOperand o s).1.getLsbD k)) ∧
      t = { s with a := t.a, p := signZero t.a s.p, ppu := (readOperand o s).2.ppu } := by
  simpa only [combineWithA_state, signZero_eq, and_true] using h s.a (readOperand o s).1

/-- Settles O25: the three operations on bytes are their operations on bits. -/
theorem logicCombinesBitByBit : Obligations.LogicCombinesBitByBit := by
  intro o s m ig hig
  obtain ⟨f, hexec, hbits⟩ : ∃ f : Byte → Byte → Byte, exec ig.1 s = .next (combineWithA f o s) ∧
      ∀ a m k, (f a m).getLsbD k = ig.2 (a.getLsbD k) (m.getLsbD k) := by
    simp only [List.mem_cons, List.not_mem_nil, or_false] at hig
    rcases hig with rfl | rfl | rfl
    · exact ⟨_, rfl, fun _ _ _ => BitVec.getLsbD_and⟩
    · exact ⟨_, rfl, fun _ _ _ => BitVec.getLsbD_or⟩
    · exact ⟨_, rfl, fun _ _ _ => BitVec.getLsbD_xor⟩
  obtain ⟨ha, hframe⟩ := combineWithA_bitwise hbits o s
  exact ⟨_, hexec, fun k _ => ha k, hframe⟩

/-- Z and N are those of `signZero_eq`; bit 6 of a byte says that its remainder by 128 is 64 or more. -/
theorem Flags.afterBit_eq (a m : Byte) (p : Flags) :
    p.afterBit a m =
      { p with
        z := decide ((a &&& m).toNat = 0)
        n := decide (128 ≤ m.toNat)
        v := decide (64 ≤ m.toNat % 128) } := by
  have hz : decide ((a &&& m).toNat = 0) = ((a &&& m) == 0) := congrArg Flags.z (signZero_eq (a &&& m) p)
  have hn : decide (128 ≤ m.toNat) = m.getLsbD 7 := congrArg Flags.n (signZero_eq m p)
  have hv : decide (64 ≤ m.toNat % 128) = m.getLsbD 6 := by
    rw [BitVec.getLsbD, Nat.testBit_eq_decide_div_mod_eq, decide_eq_decide]
    omega
  rw [Flags.afterBit, hz, hn, hv]

/-- Settles O26: BIT writes the flags of `Flags.afterBit_eq` after a bus read, which changes the record of the port alone. -/
theorem bitTestsTheOperand : Obligations.BitTestsTheOperand := by
  intro m s v
  have hexec : exec (.bit m) s = .next (testBits v (busRead (effectiveAddr m s) s).2) := rfl
  rw [hexec, testBits, busRead_a, busRead_p, Flags.afterBit_eq, busRead_state]
  rfl

/-! ### One more and one less, modulo 256 (R144 to R149) -/

theorem add_one_eq_ofNat (v : Byte) : v + 1 = BitVec.ofNat 8 ((v.toNat + 1) % 256) := by
  apply BitVec.eq_of_toNat_eq
  rw [BitVec.toNat_ofNat, Nat.mod_mod, BitVec.toNat_add]
  rfl

theorem sub_one_eq_ofNat (v : Byte) : v - 1 = BitVec.ofNat 8 ((v.toNat + 255) % 256) := by
  apply BitVec.eq_of_toNat_eq
  rw [BitVec.toNat_ofNat, Nat.mod_mod, BitVec.toNat_sub, Nat.add_comm v.toNat]
  rfl

/-- A write that follows a read of the same address changes at most the one byte there. -/
theorem busWrite_busRead_storedOnly {s : State} (ea : Addr) (v : Byte) (hs : s.mem.wf = true) :
    StoredOnly ea v s (busWrite ea v (busRead ea s).2) := by
  have h := busWrite_storedOnly (busRead ea s).2 ea v (by rwa [busRead_mem])
  simpa only [StoredOnly, busRead_peek] using h

/-- A read-modify-write changes at most the one byte at its effective address: N and Z are no part of memory. -/
theorem modifyMemory_storedOnly {s : State} (f : Byte → Byte) (m : MemOperand) (hs : s.mem.wf = true) :
    StoredOnly (effectiveAddr m s) (f (busRead (effectiveAddr m s) s).1) s (modifyMemory f m s) :=
  busWrite_busRead_storedOnly _ _ hs

/-- Settles O27: INC and DEC are one read-modify-write, of the byte plus 1 and of the byte less 1. -/
theorem incDecChangeOneByte : Obligations.IncDecChangeOneByte := by
  intro m s hs ea v ir hir
  obtain ⟨f, hexec, hf⟩ : ∃ f : Byte → Byte, exec ir.1 s = .next (modifyMemory f m s) ∧ f v = BitVec.ofNat 8 ir.2 := by
    simp only [List.mem_cons, List.not_mem_nil, or_false] at hir
    rcases hir with rfl | rfl
    · exact ⟨_, rfl, add_one_eq_ofNat v⟩
    · exact ⟨_, rfl, sub_one_eq_ofNat v⟩
  rw [← hf, signZero_eq]
  exact ⟨_, hexec, modifyMemory_state s f m, modifyMemory_storedOnly f m hs.1⟩

/-- Settles O28: each is a transfer of the register plus or less 1 to itself. -/
theorem indexIncDecWrap : Obligations.IndexIncDecWrap := by
  intro s plus minus
  have hplus (v : Byte) : plus v = v + 1 := (add_one_eq_ofNat v).symm
  have hminus (v : Byte) : minus v = v - 1 := (sub_one_eq_ofNat v).symm
  simp only [signZero_eq, hplus, hminus]
  exact ⟨rfl, rfl, rfl, rfl⟩

end Sys2Proof.Machine
end

section
/-! PROOFS. The family of 43_shift_rotate.md: the shifts and rotates of the accumulator (O29) and of a byte in memory (O30). -/

open Sys2Proof

namespace Sys2Proof.Machine

/-! ### The byte and the bit out in numbers (43_shift_rotate.md R156 to R159) -/

theorem getLsbD_seven (v : Byte) : v.getLsbD 7 = decide (128 ≤ v.toNat) :=
  v.msb_eq_getLsbD_last.symm.trans v.msb_eq_decide

theorem getLsbD_zero (v : Byte) : v.getLsbD 0 = decide (v.toNat % 2 = 1) := Nat.testBit_zero v.toNat

theorem shiftLeft_one_toNat (v : Byte) : (v <<< 1).toNat = 2 * v.toNat % 256 := by
  rw [BitVec.toNat_shiftLeft, Nat.shiftLeft_eq, Nat.mul_comm]

theorem shiftRight_one_toNat (v : Byte) : (v >>> 1).toNat = v.toNat / 2 := by
  rw [BitVec.toNat_ushiftRight, Nat.shiftRight_eq_div_pow]

/-- The carry enters bit 0, which the shift has left clear, so that the OR is a sum. -/
theorem rolByte_toNat (v : Byte) (cin : Bool) : (rolByte v cin).1.toNat = 2 * v.toNat % 256 + cin.toNat := by
  have hcin := cin.toNat_lt
  have hcarry : (BitVec.ofNat 8 cin.toNat).toNat = cin.toNat := Nat.mod_eq_of_lt (by omega)
  have hshifted : 2 * v.toNat % 256 = 2 ^ 1 * (v.toNat % 128) := by omega
  rw [rolByte, BitVec.toNat_or, shiftLeft_one_toNat, hcarry, hshifted, Nat.two_pow_add_eq_or_of_lt hcin]

/-- The carry enters bit 7, which the shift has left clear, so that the OR is a sum. -/
theorem rorByte_toNat (v : Byte) (cin : Bool) : (rorByte v cin).1.toNat = v.toNat / 2 + 128 * cin.toNat := by
  have hcin := cin.toNat_lt
  have hcarry : (BitVec.ofNat 8 (cin.toNat * 128)).toNat = 2 ^ 7 * cin.toNat := by
    rw [BitVec.toNat_ofNat]
    omega
  have hshifted : v.toNat / 2 < 2 ^ 7 := by omega
  rw [rorByte, BitVec.toNat_or, shiftRight_one_toNat, hcarry, Nat.or_comm, ← Nat.two_pow_add_eq_or_of_lt hshifted,
    Nat.add_comm]

/-- The four operations on an operand `o` that holds `v`, with carry `cin`: each with the byte it computes and the bit it
shifts out, in numbers. The obligations write this list out, for the accumulator and for a byte in memory. -/
def shiftResults (o : ShiftOperand) (v : Byte) (cin : Bool) : List (Instr × Nat × Bool) :=
  [(.asl o, 2 * v.toNat % 256, decide (128 ≤ v.toNat)), (.lsr o, v.toNat / 2, decide (v.toNat % 2 = 1)),
    (.rol o, 2 * v.toNat % 256 + cin.toNat, decide (128 ≤ v.toNat)),
    (.ror o, v.toNat / 2 + 128 * cin.toNat, decide (v.toNat % 2 = 1))]

/-- Each of the four is `shiftOperand` with a function that computes the byte and the bit out that the list has for it. -/
theorem exec_shift {o : ShiftOperand} {v : Byte} {cin : Bool} {f : Instr × Nat × Bool}
    (hf : f ∈ shiftResults o v cin) (s : State) :
    ∃ op, exec f.1 s = .next (shiftOperand op o s) ∧ (op v cin).1.toNat = f.2.1 ∧ (op v cin).2 = f.2.2 := by
  simp only [shiftResults, List.mem_cons, List.not_mem_nil, or_false] at hf
  rcases hf with rfl | rfl | rfl | rfl
  · exact ⟨aslByte, rfl, shiftLeft_one_toNat v, getLsbD_seven v⟩
  · exact ⟨lsrByte, rfl, shiftRight_one_toNat v, getLsbD_zero v⟩
  · exact ⟨rolByte, rfl, rolByte_toNat v cin, getLsbD_seven v⟩
  · exact ⟨rorByte, rfl, rorByte_toNat v cin, getLsbD_zero v⟩

/-! ### The two forms of the operand (R155, R117) -/

theorem Flags.afterShift_eq (r : Byte) (c : Bool) (p : Flags) : p.afterShift r c = { signZero r p with c := c } := by
  rw [signZero_eq]
  rfl

/-- On the accumulator a shift changes A, N, Z and C. -/
theorem shiftOperand_acc_state (op : Byte → Bool → Byte × Bool) (s : State) :
    let r := op s.a s.p.c
    shiftOperand op .acc s = { s with a := r.1, p := { signZero r.1 s.p with c := r.2 } } := by
  intro r
  rw [← Flags.afterShift_eq]
  rfl

/-- On a byte in memory a shift changes N, Z, C, memory and the record of the port. -/
theorem shiftOperand_mem_state (op : Byte → Bool → Byte × Bool) (m : MemOperand) (s : State) :
    let ea := effectiveAddr m s
    let r := op (busRead ea s).1 s.p.c
    shiftOperand op (.mem m) s =
      { s with
        p := { signZero r.1 s.p with c := r.2 }
        mem := (shiftOperand op (.mem m) s).mem
        ppu := portAfterWrite ea r.1 (busRead ea s).2.ppu } := by
  intro ea r
  rw [← Flags.afterShift_eq]
  simp only [shiftOperand]
  rw [busWrite_state, busRead_state]
  rfl

/-- A shift of a byte in memory changes at most the one byte at its effective address: the flags are no part of memory. -/
theorem shiftOperand_mem_storedOnly {s : State} (op : Byte → Bool → Byte × Bool) (m : MemOperand)
    (hs : s.mem.wf = true) :
    StoredOnly (effectiveAddr m s) (op (busRead (effectiveAddr m s) s).1 s.p.c).1 s (shiftOperand op (.mem m) s) :=
  busWrite_busRead_storedOnly _ _ hs

/-- Settles O29: `exec_shift` on A. -/
theorem accumulatorShiftsMoveOneBit : Obligations.AccumulatorShiftsMoveOneBit := by
  intro s v c f hf
  obtain ⟨op, hexec, hbyte, hout⟩ := exec_shift (o := .acc) (v := s.a) (cin := s.p.c) hf s
  rw [← hout]
  exact ⟨_, hexec, hbyte, shiftOperand_acc_state op s⟩

/-- Settles O30: `exec_shift` on the byte read at the effective address. -/
theorem memoryShiftsChangeOneByte : Obligations.MemoryShiftsChangeOneByte := by
  intro m s hs ea v c f hf
  obtain ⟨op, hexec, hbyte, hout⟩ := exec_shift (o := .mem m) (v := (busRead ea s).1) (cin := s.p.c) hf s
  rw [← hout, ← hbyte, BitVec.ofNat_toNat, BitVec.setWidth_eq]
  exact ⟨_, hexec, shiftOperand_mem_state op m s, shiftOperand_mem_storedOnly op m hs.1⟩

end Sys2Proof.Machine
end

section
/-! PROOFS. The family of 44_branch_jump.md: the branches (O31), JMP (O32), JSR (O33), RTS (O34), and RTS after JSR (O35). -/

open Sys2Proof

namespace Sys2Proof.Machine

/-! ### The branches (44_branch_jump.md R165 to R173) -/

/-- The sixteen bits of the sum keep the signed displacement. -/
theorem branchTarget_eq_ofInt (d : Byte) (s : State) :
    branchTarget d s = BitVec.ofInt 16 ((s.pc.toNat : Int) + d.toInt) := by
  rw [BitVec.ofInt_add, BitVec.ofInt_natCast, BitVec.ofNat_toNat, BitVec.setWidth_eq]
  rfl

theorem crossed_eq (base ea : Addr) : crossed base ea = decide (ea.toNat / 256 ≠ base.toNat / 256) := by
  rw [crossed, Bool.eq_iff_iff, bne_iff_ne, decide_eq_true_iff, ne_eq, BitVec.toNat_eq, hi8_toNat, hi8_toNat, eq_comm]

/-- The penalty of a branch by page numbers. -/
theorem branchPenalty_eq (taken : Bool) (d : Byte) (s : State) :
    branchPenalty taken d s =
      if taken then (if (branchTarget d s).toNat / 256 = s.pc.toNat / 256 then 1 else 2) else 0 := by
  rw [branchPenalty, crossed_eq]
  by_cases hpage : (branchTarget d s).toNat / 256 = s.pc.toNat / 256 <;> simp [hpage]

/-- The eight branches, each with the condition that it tests (R166 to R173). -/
def branchConditions (d : Byte) (p : Flags) : List (Instr × Bool) :=
  [(.bcc d, !p.c), (.bcs d, p.c), (.beq d, p.z), (.bmi d, p.n), (.bne d, !p.z), (.bpl d, !p.n), (.bvc d, !p.v),
    (.bvs d, p.v)]

/-- Each of the eight is `branch` on its condition, with that penalty over 2 base cycles. -/
theorem exec_branch {d : Byte} {s : State} {ic : Instr × Bool} (h : ic ∈ branchConditions d s.p) :
    exec ic.1 s = .next (branch ic.2 d s) ∧ ic.1.baseCycles = 2 ∧ penalty ic.1 s = branchPenalty ic.2 d s := by
  simp only [branchConditions, List.mem_cons, List.not_mem_nil, or_false] at h
  rcases h with rfl | rfl | rfl | rfl | rfl | rfl | rfl | rfl <;> exact ⟨rfl, rfl, rfl⟩

/-- Settles O31: `exec_branch`, with the target and the penalty in numbers. -/
theorem branchesTestOneFlag : Obligations.BranchesTestOneFlag := by
  intro d s target ic hic
  have htarget : branchTarget d s = target := branchTarget_eq_ofInt d s
  simp only [Bool.decide_eq_true, Bool.decide_eq_false] at hic
  obtain ⟨hexec, hbase, hpenalty⟩ := exec_branch hic
  rw [branchPenalty_eq, htarget] at hpenalty
  rw [branch_eq, ← branchTarget, htarget] at hexec
  exact ⟨hexec, hbase, hpenalty⟩

/-! ### JMP (R174, R175; 40_fetch_decode_addressing.md R113) -/

/-- The address after `p` in the page of `p` (D11). -/
def nextInPage (p : Addr) : Addr := BitVec.ofNat 16 (p.toNat / 256 * 256 + (p.toNat + 1) % 256)

theorem nextInPage_toNat (p : Addr) : (nextInPage p).toNat = p.toNat / 256 * 256 + (p.toNat + 1) % 256 := by
  have := p.isLt
  rw [nextInPage, BitVec.toNat_ofNat]
  omega

/-- The PPU window is made of whole pages. -/
theorem inPpu_nextInPage (p : Addr) : inPpu (nextInPage p) = inPpu p := by
  rw [Bool.eq_iff_iff, inPpu_eq_true_iff, inPpu_eq_true_iff, nextInPage_toNat]
  omega

theorem and_0xFF00_toNat (p : Addr) : (p &&& 0xFF00).toNat = p.toNat / 256 * 256 := by
  have := p.isLt
  rw [show (0xFF00 : Addr) = BitVec.allOnes 16 <<< 8 from rfl, ← BitVec.shiftLeft_ushiftRight, BitVec.toNat_shiftLeft,
    BitVec.toNat_ushiftRight, Nat.shiftLeft_eq, Nat.shiftRight_eq_div_pow]
  omega

theorem and_0x00FF_toNat (p : Addr) : (p &&& 0x00FF).toNat = p.toNat % 256 := by
  rw [BitVec.toNat_and]
  exact Nat.and_two_pow_sub_one_eq_mod p.toNat 8

/-- The page and the offset share no bit, so that their OR is a sum. -/
theorem samePage_or_eq_nextInPage (p : Addr) : (p &&& 0xFF00) ||| ((p + 1) &&& 0x00FF) = nextInPage p := by
  have hoffset : (p + 1).toNat % 256 = (p.toNat + 1) % 256 := by
    rw [BitVec.toNat_add]
    exact Nat.mod_mod_of_dvd _ (by decide)
  have hlt : (p.toNat + 1) % 256 < 2 ^ 8 := Nat.mod_lt _ (by decide)
  apply BitVec.eq_of_toNat_eq
  rw [nextInPage_toNat, BitVec.toNat_or, and_0xFF00_toNat, and_0x00FF_toNat, hoffset, Nat.mul_comm]
  exact (Nat.two_pow_add_eq_or_of_lt hlt _).symm

/-- JMP indirect reads its pointer's two bytes over the bus, low byte first, inside the page of the pointer. -/
theorem exec_jmpInd (p : Addr) (s : State) :
    let low := busRead p s
    let high := busRead (nextInPage p) low.2
    exec (.jmpInd p) s = .next (high.2.setPc (word high.1 low.1)) := by
  rw [← samePage_or_eq_nextInPage]
  rfl

/-- Settles O32: the two reads of `exec_jmpInd` are both answered by storage or both by the port. -/
theorem jumpsSetPc : Obligations.JumpsSetPc := by
  refine fun p s => ⟨rfl, fun hp => ?_, fun hp => ?_⟩
  · have hq : inPpu (nextInPage p) = false := (inPpu_nextInPage p).trans hp
    rw [exec_jmpInd, busRead_storage s hp, busRead_storage s hq]
    rfl
  · have hq : inPpu (nextInPage p) = true := (inPpu_nextInPage p).trans hp
    rw [exec_jmpInd, busRead_ppu s hp, busRead_ppu _ hq, State.setPpu_ppu, List.append_assoc]
    rfl

/-! ### The stack page (R120 to R123, D12) -/

theorem sameByte_stackAddr {b : Addr} {k : Byte} : sameByte b (stackAddr k) = true ↔ cellKey b = 0x100 + k.toNat := by
  rw [sameByte_eq, cellKey_stackAddr, decide_eq_true_iff]

/-- A push changes the one byte at the address SP designates. -/
theorem push_peek {s : State} (v : Byte) (hs : s.mem.wf = true) {b : Addr} (hb : inPpu b = false) :
    (push v s).peek b = if sameByte b (stackAddr s.sp) then v else s.peek b := by
  exact (busWrite_storedOnly s (stackAddr s.sp) v hs b hb).trans (by simp)

/-- A 16-bit push changes two bytes: the high byte is at the address SP designates, the low byte below it. -/
theorem push16_peek {s : State} (w : Addr) (hs : s.mem.wf = true) {b : Addr} (hb : inPpu b = false) :
    (push16 w s).peek b =
      if sameByte b (stackAddr s.sp) then hi8 w
      else if sameByte b (stackAddr (s.sp - 1)) then lo8 w else s.peek b := by
  rw [push16, push_peek _ (push_wf s _ hs) hb, push_peek _ hs hb, push_sp]
  -- the later push is to the other byte, so that the order of the two tests does not matter
  have hdistinct : sameByte b (stackAddr s.sp) = true → sameByte b (stackAddr (s.sp - 1)) ≠ true := by
    simp only [ne_eq, sameByte_stackAddr]
    bv_omega
  by_cases hhigh : sameByte b (stackAddr s.sp) = true
  · rw [if_neg (hdistinct hhigh), if_pos hhigh, if_pos hhigh]
  · rw [if_neg hhigh, if_neg hhigh]

/-- A 16-bit push changes SP and memory, and nothing else. -/
theorem push16_state (w : Addr) (s : State) :
    push16 w s = { s with sp := s.sp - 2, mem := (push16 w s).mem } := by
  rw [show s.sp - 2 = s.sp - 1 - 1 from (BitVec.sub_sub s.sp 1 1).symm]
  simp only [push16, push_eq]
  rfl

/-- What a 16-bit pull gives: the word at the two bytes above SP, low byte first. -/
theorem pull16_eq (s : State) :
    pull16 s = (word (s.peek (stackAddr (s.sp + 2))) (s.peek (stackAddr (s.sp + 1))), s.setSp (s.sp + 2)) := by
  rw [show s.sp + 2 = s.sp + 1 + 1 from (BitVec.add_assoc s.sp 1 1).symm]
  rfl

/-- A 16-bit pull after a 16-bit push gives the word back and restores SP. -/
theorem pull16_push16 (w : Addr) {s : State} (hs : s.mem.wf = true) :
    pull16 (push16 w s) = (w, (push16 w s).setSp s.sp) := by
  have hlow : s.sp - 1 - 1 + 1 = s.sp - 1 := BitVec.sub_add_cancel ..
  have hhigh : s.sp - 1 - 1 + 2 = s.sp := by bv_omega
  have hbelow : sameByte (stackAddr (s.sp - 1)) (stackAddr s.sp) = false := by
    rw [← Bool.not_eq_true, sameByte_stackAddr, cellKey_stackAddr]
    bv_omega
  rw [pull16_eq, push16_sp, hlow, hhigh, push16_peek w hs (stackAddr_not_ppu _), push16_peek w hs (stackAddr_not_ppu _),
    hbelow, sameByte_stackAddr.2 (cellKey_stackAddr _), sameByte_stackAddr.2 (cellKey_stackAddr _)]
  simp [word_lo8_hi8]

/-! ### JSR and RTS (R176, R177, D13) -/

/-- Settles O33: JSR is a 16-bit push and a jump. -/
theorem jsrPushesTheReturnAddressLessOne : Obligations.JsrPushesTheReturnAddressLessOne := by
  refine fun a s hs => ⟨_, rfl, ?_, fun b hb => push16_peek (s.pc - 1) hs.1 hb⟩
  exact congrArg (·.setPc a) (push16_state (s.pc - 1) s)

theorem exec_rts (s : State) : exec .rts s = .next ((pull16 s).2.setPc ((pull16 s).1 + 1)) := rfl

theorem word_eq_ofNat (h l : Byte) : word h l = BitVec.ofNat 16 (256 * h.toNat + l.toNat) := by
  rw [← word_toNat, BitVec.ofNat_toNat, BitVec.setWidth_eq]

/-- Settles O34: the word is that of `pull16_eq`. -/
theorem rtsContinuesPastThePulledAddress : Obligations.RtsContinuesPastThePulledAddress := by
  intro s
  rw [exec_rts, pull16_eq, BitVec.ofNat_add, ← word_eq_ofNat]
  rfl

/-- Settles O35: RTS pulls what JSR pushed, the return address less 1, and adds 1; PC is no input of the pull. -/
theorem rtsUndoesJsr : Obligations.RtsUndoesJsr := by
  intro a b s t hs ht
  obtain rfl : (push16 (s.pc - 1) s).setPc a = t := Host.Outcome.next.inj ht
  have hpull : pull16 { (push16 (s.pc - 1) s).setPc a with pc := b } =
      (s.pc - 1, ((push16 (s.pc - 1) s).setSp s.sp).setPc b) :=
    congrArg (fun r => (r.1, r.2.setPc b)) (pull16_push16 (s.pc - 1) hs.1)
  refine ⟨_, exec_rts _, ?_⟩
  rw [hpull, BitVec.sub_add_cancel]
  exact congrArg (fun r => (r.setSp s.sp).setPc s.pc) (push16_state (s.pc - 1) s)

end Sys2Proof.Machine
end

section
/-! PROOFS. The family of 45_stack_flags_system.md: PHA and PHP (O36), PLA and PLP (O37), the flag operations (O43), NOP and
the undefined opcodes (O44), and the step at an undefined opcode (O45). -/

open Sys2Proof

namespace Sys2Proof.Machine

/-! ### The stack by number (40_fetch_decode_addressing.md R120, R121, R123) -/

theorem stackAddr_eq_ofNat (sp : Byte) : stackAddr sp = BitVec.ofNat 16 (0x100 + sp.toNat) := by
  rw [← stackAddr_toNat, BitVec.ofNat_toNat, BitVec.setWidth_eq]

/-- A push changes SP and memory, and nothing else. -/
theorem push_state (v : Byte) (s : State) : push v s = { s with sp := s.sp - 1, mem := (push v s).mem } := by
  rw [push_eq]
  rfl

/-- The one byte of memory that a push changes is the one at the address SP designates. -/
theorem push_storedOnly {s : State} (v : Byte) (hs : s.mem.wf = true) : StoredOnly (stackAddr s.sp) v s (push v s) :=
  busWrite_storedOnly s (stackAddr s.sp) v hs

/-- Settles O36: each of the two is a push, of A and of the status byte. -/
theorem pushesStoreAtTheStackPointer : Obligations.PushesStoreAtTheStackPointer := by
  intro s hs iv hiv
  have hexec : exec iv.1 s = .next (push iv.2 s) := by
    simp only [List.mem_cons, List.not_mem_nil, or_false] at hiv
    rcases hiv with rfl | rfl <;> rfl
  rw [← sub_one_eq_ofNat, ← stackAddr_eq_ofNat]
  exact ⟨_, hexec, push_state iv.2 s, push_storedOnly iv.2 hs.1⟩

/-- Settles O37: each of the two is a pull, at SP plus 1; PLA's is then a transfer to A. -/
theorem pullsTakeTheByteAboveTheStackPointer : Obligations.PullsTakeTheByteAboveTheStackPointer := by
  intro s sp v
  have hsp : s.sp + 1 = sp := add_one_eq_ofNat s.sp
  have hpull : pull s = (v, s.setSp sp) := by rw [pull, hsp, stackAddr_eq_ofNat]
  have hpla : exec .pla s = .next (transfer State.setA (pull s).1 (pull s).2) := rfl
  have hplp : exec .plp s = .next ((pull s).2.setP (Flags.ofByte (pull s).1)) := rfl
  rw [hpla, hplp, hpull, signZero_eq]
  exact ⟨rfl, rfl⟩

/-! ### The flags, NOP and the undefined opcodes (R192 to R198, R200, R205) -/

/-- Settles O43: each arm is the update of its one flag, as the statement writes it. -/
theorem flagOperationsWriteOneFlag : Obligations.FlagOperationsWriteOneFlag :=
  fun _ => ⟨rfl, rfl, rfl, rfl, rfl, rfl, rfl⟩

theorem exec_nop (s : State) : exec .nop s = .next s := rfl

theorem exec_und (op : Byte) (s : State) : exec (.und op) s = .next s := rfl

/-- Settles O44: both arms answer the state they are given. -/
theorem nopAndUndefinedChangeNothing : Obligations.NopAndUndefinedChangeNothing :=
  fun op s => ⟨exec_nop s, exec_und op s⟩

theorem operandCount_undefined {op : Byte} (h : op ∈ undefinedOpcodes) : operandCount op = 0 := by
  rw [operandCount, decodeOpcode_undefined h]
  rfl

/-- Nothing is fetched after an undefined opcode. -/
theorem fetchOperands_undefined {op : Byte} (h : op ∈ undefinedOpcodes) (s : State) :
    fetchOperands op s = (.und op, s) := by
  simp only [fetchOperands, operandCount_undefined h, decodeOpcode_undefined h]

theorem addr_add_one_eq_ofNat (a : Addr) : a + 1 = BitVec.ofNat 16 ((a.toNat + 1) % 65536) := by
  apply BitVec.eq_of_toNat_eq
  rw [BitVec.toNat_ofNat, Nat.mod_mod, BitVec.toNat_add]
  rfl

/-- Settles O45: outside the PPU window the fetch of the opcode only moves PC, and after it nothing is fetched or run. -/
theorem stepAtAnUndefinedOpcodeAdvancesPcByOne : Obligations.StepAtAnUndefinedOpcodeAdvancesPcByOne := by
  intro s hloaded hphase hpc hop
  have hfetch : fetchByte s = (s.peek s.pc, s.setPc (s.pc + 1)) := fetchByte_storage s hpc
  constructor
  · rw [step, whenLoaded_eq s _ hloaded, runToBoundary_of_fetch hphase, hfetch, runOpcode, fetchOperands_undefined hop,
      exec_und, addr_add_one_eq_ofNat]
    rfl
  · rw [ticksLeft_of_fetch hphase, hfetch, fetchOperands_undefined hop, baseCycles_undefined hop]
    rfl

end Sys2Proof.Machine
end

section
/-! PROOFS. The family of 46_load_store_transfer.md: LDA, LDX and LDY (O18), STA, STX and STY (O19), the transfers that write
N and Z (O20), and TXS (O21). -/

open Sys2Proof

namespace Sys2Proof.Machine

/-! ### Loads (46_load_store_transfer.md R210 to R212) -/

/-- Settles O18: each of the three is `loadRegister` into its own register. -/
theorem loadsPutTheOperandInTheRegister : Obligations.LoadsPutTheOperandInTheRegister := by
  intro o s v port
  have hlda : exec (.lda o) s = .next (loadRegister State.setA o s) := rfl
  have hldx : exec (.ldx o) s = .next (loadRegister State.setX o s) := rfl
  have hldy : exec (.ldy o) s = .next (loadRegister State.setY o s) := rfl
  rw [hlda, hldx, hldy, loadRegister_setA, loadRegister_setX, loadRegister_setY, signZero_eq]
  exact ⟨rfl, rfl, rfl⟩

/-! ### Stores (R213 to R215) -/

/-- Settles O19: each of the three is one bus write of its register. It makes no read, so the record of the port is that of the
write alone. -/
theorem storesWriteOnlyTheEffectiveAddress : Obligations.StoresWriteOnlyTheEffectiveAddress := by
  intro m s hs iv hiv
  have hexec : exec iv.1 s = .next (busWrite (effectiveAddr m s) iv.2 s) := by
    simp only [List.mem_cons, List.not_mem_nil, or_false] at hiv
    rcases hiv with rfl | rfl | rfl <;> rfl
  exact ⟨_, hexec, busWrite_state s (effectiveAddr m s) iv.2, busWrite_storedOnly s (effectiveAddr m s) iv.2 hs.1⟩

/-! ### Transfers (R216 to R221) -/

/-- N and Z in numbers after a transfer, whatever register it sets. -/
theorem transfer_eq_signZero (set : Byte → State → State) (v : Byte) (s : State) :
    transfer set v s = (set v s).setP (signZero v (set v s).p) := by
  rw [signZero_eq]
  rfl

/-- Settles O20: each of the five is `transfer` from its source to its destination, which writes no flag itself. -/
theorem transfersCopyAndSetSignAndZero : Obligations.TransfersCopyAndSetSignAndZero := by
  intro s
  have htax : exec .tax s = .next (transfer State.setX s.a s) := rfl
  have htay : exec .tay s = .next (transfer State.setY s.a s) := rfl
  have htxa : exec .txa s = .next (transfer State.setA s.x s) := rfl
  have htya : exec .tya s = .next (transfer State.setA s.y s) := rfl
  have htsx : exec .tsx s = .next (transfer State.setX s.sp s) := rfl
  rw [htax, htay, htxa, htya, htsx]
  simp only [transfer_eq_signZero]
  exact ⟨rfl, rfl, rfl, rfl, rfl⟩

theorem exec_txs (s : State) : exec .txs s = .next (s.setSp s.x) := rfl

/-- Settles O21: the arm sets SP and goes through no operation that writes a flag (D17). -/
theorem txsWritesNoFlag : Obligations.TxsWritesNoFlag := exec_txs

end Sys2Proof.Machine
end

section
/-! PROOFS. The family of 60_exceptions.md: taking the BRK trap (O40), returning from it (O41, O42), and that the machine has
no fault (O46). -/

open Sys2Proof

namespace Sys2Proof.Machine

/-! ### Taking the trap (R232; 45_stack_flags_system.md R190) -/

theorem exec_brk (s : State) : exec .brk s = .next (takeBreak s) := rfl

/-- No address above RAM, where the vectors are, selects a byte of the stack page. -/
theorem sameByte_stackAddr_above_ram {b : Addr} (hb : 0x2000 ≤ b.toNat) (k : Byte) :
    sameByte b (stackAddr k) = false := by
  rw [← Bool.not_eq_true, sameByte_stackAddr, cellKey_above_ram hb]
  have := k.isLt
  omega

/-- The vector is read after the pushes, which leave it as it was. -/
theorem takeBreak_pc (s : State) : (takeBreak s).pc = word (s.peek 0xFFFF) (s.peek 0xFFFE) := by
  obtain ⟨-, -, -, -, -, -, -, -, -, hpc⟩ := takeBreak_spec s
  have hkept {b : Addr} (hb : 0x2000 ≤ b.toNat) : (push s.p.toByte (push16 s.pc s)).peek b = s.peek b := by
    have hoff := sameByte_stackAddr_above_ram hb
    rw [push_peek_off_page hoff, push16_peek_off_page hoff]
  rw [hpc, State.vector, hkept (by decide), hkept (by decide)]
  rfl

/-- Taking the trap changes PC, SP, B and memory, and nothing else. -/
theorem takeBreak_state (s : State) :
    takeBreak s =
      { s with
        pc := word (s.peek 0xFFFF) (s.peek 0xFFFE)
        sp := s.sp - 3
        p := { s.p with b := true }
        mem := (takeBreak s).mem } := by
  obtain ⟨ha, hx, hy, hsp, hp, hphase, hppu, hloaded, -, -⟩ := takeBreak_spec s
  have hsub : s.sp - 1 - 1 - 1 = s.sp - 3 := by bv_omega
  rw [State.mk.injEq]
  exact ⟨ha, hx, hy, hsp.trans hsub, takeBreak_pc s, hp, hphase, rfl, hppu, hloaded⟩

/-- The 256 addresses of the stack page select 256 different bytes. -/
theorem sameByte_stackAddr_stackAddr (j k : Byte) : sameByte (stackAddr j) (stackAddr k) = decide (j = k) := by
  rw [sameByte_eq, cellKey_stackAddr, cellKey_stackAddr, decide_eq_decide, Nat.add_left_cancel_iff, BitVec.toNat_inj]

/-- The three bytes that taking the trap stores: those of a 16-bit push of PC, and the status byte below them. -/
theorem takeBreak_peek {s : State} (hs : s.mem.wf = true) {b : Addr} (hb : inPpu b = false) :
    (takeBreak s).peek b =
      if sameByte b (stackAddr s.sp) then hi8 s.pc
      else if sameByte b (stackAddr (s.sp - 1)) then lo8 s.pc
      else if sameByte b (stackAddr (s.sp - 2)) then s.p.toByte else s.peek b := by
  have hsub : s.sp - 1 - 1 = s.sp - 2 := BitVec.sub_sub s.sp 1 1
  have hpush : (takeBreak s).peek b =
      if sameByte b (stackAddr (s.sp - 2)) then s.p.toByte else (push16 s.pc s).peek b := by
    rw [← hsub, ← push16_sp]
    exact push_peek s.p.toByte (push16_wf s s.pc hs) hb
  rw [hpush, push16_peek s.pc hs hb]
  -- the status byte, pushed last, is neither byte of PC, so that the order of the tests does not matter
  have hdistinct : sameByte b (stackAddr (s.sp - 2)) = true →
      sameByte b (stackAddr s.sp) ≠ true ∧ sameByte b (stackAddr (s.sp - 1)) ≠ true := by
    simp only [ne_eq, sameByte_stackAddr]
    bv_omega
  by_cases hstatus : sameByte b (stackAddr (s.sp - 2)) = true
  · obtain ⟨hhigh, hlow⟩ := hdistinct hstatus
    rw [if_pos hstatus, if_neg hhigh, if_neg hlow, if_pos hstatus]
  · rw [if_neg hstatus, if_neg hstatus]

/-- Settles O40: the state by `takeBreak_state`, the bytes of memory by `takeBreak_peek`. -/
theorem brkSavesPcAndStatusAndVectors : Obligations.BrkSavesPcAndStatusAndVectors :=
  fun s hs => ⟨takeBreak s, exec_brk s, takeBreak_state s, fun _ hb => takeBreak_peek hs.1 hb⟩

/-! ### Returning from it (R233; R191) -/

theorem exec_rti (s : State) : exec .rti s = .next (returnFromBreak s) := rfl

/-- Returning from the trap changes the flags, PC and SP, and nothing else. -/
theorem returnFromBreak_state (s : State) :
    returnFromBreak s =
      { s with
        p := Flags.ofByte (s.peek (stackAddr (s.sp + 1)))
        pc := word (s.peek (stackAddr (s.sp + 3))) (s.peek (stackAddr (s.sp + 2)))
        sp := s.sp + 3 } := by
  rw [show s.sp + 3 = s.sp + 1 + 1 + 1 by bv_omega, show s.sp + 2 = s.sp + 1 + 1 by bv_omega]
  rfl

/-- Settles O41: by `returnFromBreak_state`. -/
theorem rtiRestoresStatusAndPc : Obligations.RtiRestoresStatusAndPc := fun s => by
  rw [exec_rti, returnFromBreak_state]

/-- The bytes that a return pulls after a trap, in the order it pulls them. -/
theorem takeBreak_stack {s : State} (hs : s.mem.wf = true) :
    (takeBreak s).peek (stackAddr (s.sp - 2)) = s.p.toByte ∧ (takeBreak s).peek (stackAddr (s.sp - 1)) = lo8 s.pc ∧
      (takeBreak s).peek (stackAddr s.sp) = hi8 s.pc := by
  simp [takeBreak_peek hs, sameByte_stackAddr_stackAddr]

/-- Settles O42: RTI pulls the three bytes that BRK pushed; of what the handler may change, none is an input of the pulls. -/
theorem rtiUndoesBrk : Obligations.RtiUndoesBrk := by
  intro s t a x y pc q hs ht
  obtain rfl : takeBreak s = t := Host.Outcome.next.inj ht
  obtain ⟨hstatus, hlow, hhigh⟩ := takeBreak_stack hs.1
  have hsp : (takeBreak s).sp = s.sp - 3 := by rw [takeBreak_state]
  have h1 : s.sp - 3 + 1 = s.sp - 2 := by bv_omega
  have h2 : s.sp - 3 + 2 = s.sp - 1 := by bv_omega
  have h3 : s.sp - 3 + 3 = s.sp := by bv_omega
  refine ⟨_, rtiRestoresStatusAndPc _, ?_, ?_, ?_⟩
  · show word ((takeBreak s).peek (stackAddr ((takeBreak s).sp + 3)))
      ((takeBreak s).peek (stackAddr ((takeBreak s).sp + 2))) = s.pc
    rw [hsp, h3, h2, hhigh, hlow, word_lo8_hi8]
  · show Flags.ofByte ((takeBreak s).peek (stackAddr ((takeBreak s).sp + 1))) = s.p
    rw [hsp, h1, hstatus, Flags.ofByte_toByte]
  · show (takeBreak s).sp + 3 = s.sp
    rw [hsp, h3]

/-! ### No fault (R230; 40_fetch_decode_addressing.md R100; 70_reset_and_hazards.md R259, R262) -/

theorem exec_goesOn (i : Instr) (s : State) : GoesOn (exec i s) := by
  obtain ⟨t, ht, -⟩ := exec_changesOnly s i
  exact ⟨t, ht⟩

theorem runOpcode_goesOn (op : Byte) (s : State) : GoesOn (runOpcode op s) := exec_goesOn _ _

theorem runToBoundary_goesOn (s : State) : GoesOn (runToBoundary s) := by
  cases h : s.phase with
  | fetch => rw [runToBoundary_of_fetch h]; exact runOpcode_goesOn _ _
  | execute op n => rw [runToBoundary_of_execute h]; exact runOpcode_goesOn _ _
  | delay m => exact ⟨_, runToBoundary_of_delay h⟩

/-- The running tick passes on the answer of the instruction it runs, and moves only the phase. -/
theorem runningTick_eq {op : Byte} {s t : State} (h : runOpcode op (s.setPhase .fetch) = .next t) :
    runningTick op s =
      .next
        (t.setPhase
          (phaseAfter
            (penalty (fetchOperands op (s.setPhase .fetch)).1 (fetchOperands op (s.setPhase .fetch)).2))) := by
  rw [runOpcode] at h
  simp only [runningTick, h]

theorem runningTick_goesOn (op : Byte) (s : State) : GoesOn (runningTick op s) := by
  obtain ⟨t, ht⟩ := runOpcode_goesOn op (s.setPhase .fetch)
  exact ⟨_, runningTick_eq ht⟩

theorem tickPhase_of_fetch {s : State} (h : s.phase = .fetch) :
    tickPhase s = .next ((fetchByte s).2.setPhase (.execute (fetchByte s).1 (baseCycles (fetchByte s).1 - 1))) := by
  simp only [tickPhase, h]

theorem tickPhase_of_execute {s : State} {op : Byte} {n : Nat} (h : s.phase = .execute op n) :
    tickPhase s = if 1 < n then .next (s.setPhase (.execute op (n - 1))) else runningTick op s := by
  simp only [tickPhase, h]

theorem tickPhase_of_delay {s : State} {m : Nat} (h : s.phase = .delay m) :
    tickPhase s = .next (s.setPhase (if 1 < m then .delay (m - 1) else .fetch)) := by simp only [tickPhase, h]

theorem tickPhase_goesOn (s : State) : GoesOn (tickPhase s) := by
  cases h : s.phase with
  | fetch => exact ⟨_, tickPhase_of_fetch h⟩
  | execute op n =>
    rw [tickPhase_of_execute h]
    split
    · exact ⟨_, rfl⟩
    · exact runningTick_goesOn op s
  | delay m => exact ⟨_, tickPhase_of_delay h⟩

/-- Settles O46: every instruction goes on, and once an image is loaded a step and a tick run no more than one instruction. -/
theorem aLoadedMachineNeverFaultsOrRefuses : Obligations.ALoadedMachineNeverFaultsOrRefuses := by
  refine ⟨exec_goesOn, fun s hloaded => ⟨?_, ?_⟩⟩
  · rw [step, whenLoaded_eq s _ hloaded]
    exact runToBoundary_goesOn s
  · rw [tick, whenLoaded_eq s _ hloaded]
    exact tickPhase_goesOn s

end Sys2Proof.Machine
end

section
/-! PROOFS. The family of 70_reset_and_hazards.md: reset and load (O53, O59, O60), and the cycle state machine: its invariant
(O52), that it refines the step (O54), and what shows between two boundaries (O55, O56). -/

open Sys2Proof

namespace Sys2Proof.Machine

/-! ### The phase and the ticks left (70_reset_and_hazards.md R262, R266) -/

@[simp] theorem State.setPhase_setPhase (s : State) (g h : Phase) : (s.setPhase g).setPhase h = s.setPhase h := rfl

theorem State.setPhase_of_phase {s : State} {h : Phase} (hs : s.phase = h) : s.setPhase h = s := by
  cases hs
  rfl

/-- The penalty of the instruction of a fetched opcode, in the state in which it runs. -/
def opcodePenalty (op : Byte) (s : State) : Nat := penalty (fetchOperands op s).1 (fetchOperands op s).2

@[simp] theorem opcodePenalty_setPhase (op : Byte) (s : State) (h : Phase) :
    opcodePenalty op (s.setPhase h) = opcodePenalty op s := by
  simp only [opcodePenalty, fetchOperands_setPhase, penalty_setPhase]

theorem ticksLeft_of_boundary {s : State} (h : s.phase = .fetch) :
    ticksLeft s = baseCycles (fetchByte s).1 + opcodePenalty (fetchByte s).1 (fetchByte s).2 := ticksLeft_of_fetch h

theorem ticksLeft_of_execute {s : State} {op : Byte} {n : Nat} (h : s.phase = .execute op n) :
    ticksLeft s = n + opcodePenalty op s := by simp only [ticksLeft, h, opcodePenalty]

theorem ticksLeft_of_delay {s : State} {m : Nat} (h : s.phase = .delay m) : ticksLeft s = m := by simp only [ticksLeft, h]

/-- An opcode run from a boundary ends at one: no instruction writes the phase (10_state.md R38). -/
theorem runOpcode_phase {op : Byte} {s t : State} (hs : s.phase = .fetch) (h : runOpcode op s = .next t) :
    t.phase = .fetch := by rw [(changesOnly_of_exec h).phase, fetchOperands_phase, hs]

/-- The running tick is the latched instruction run from a boundary, with its penalty left to wait out (R264). -/
theorem runningTick_next {op : Byte} {s t : State} (h : runningTick op s = .next t) :
    ∃ u, runOpcode op (s.setPhase .fetch) = .next u ∧ t = u.setPhase (phaseAfter (opcodePenalty op s)) := by
  obtain ⟨u, hu⟩ := runOpcode_goesOn op (s.setPhase .fetch)
  refine ⟨u, hu, ?_⟩
  rw [runningTick_eq hu] at h
  cases h
  rw [← opcodePenalty_setPhase op s .fetch]
  rfl

/-! ### The invariant (R262 to R265) -/

theorem phaseAfter_legal {p : Nat} (hp : p ≤ 2) : (phaseAfter p).legal = true := by
  unfold phaseAfter
  split
  · rfl
  · simp only [Phase.legal, Bool.and_eq_true, decide_eq_true_eq]
    omega

theorem legal_execute {op : Byte} {n : Nat} : (Phase.execute op n).legal = true ↔ 1 ≤ n ∧ n ≤ baseCycles op - 1 := by
  simp [Phase.legal]

theorem legal_delay {m : Nat} : (Phase.delay m).legal = true ↔ 1 ≤ m ∧ m ≤ 2 := by simp [Phase.legal]

theorem runningTick_inv {op : Byte} {s t : State} (hs : s.mem.wf = true) (h : runningTick op s = .next t) : t.Inv := by
  obtain ⟨u, hu, rfl⟩ := runningTick_next h
  obtain ⟨⟨hmem, -⟩, -⟩ := runOpcode_inv (s := s.setPhase .fetch) hs rfl hu
  exact ⟨hmem, phaseAfter_legal (penalty_le _ _)⟩

theorem tickPhase_inv {s t : State} (hs : s.Inv) (h : tickPhase s = .next t) : t.Inv := by
  obtain ⟨hmem, hlegal⟩ := hs
  cases hphase : s.phase with
  | fetch =>
    rw [tickPhase_of_fetch hphase] at h
    cases h
    have hbase := baseCycles_bounds (fetchByte s).1
    exact ⟨by simpa using hmem, legal_execute.2 (by omega)⟩
  | execute op n =>
    rw [hphase, legal_execute] at hlegal
    rw [tickPhase_of_execute hphase] at h
    split at h
    · cases h
      exact ⟨hmem, legal_execute.2 (by omega)⟩
    · exact runningTick_inv hmem h
  | delay m =>
    rw [hphase, legal_delay] at hlegal
    rw [tickPhase_of_delay hphase] at h
    cases h
    refine ⟨hmem, ?_⟩
    rw [State.setPhase_phase]
    split
    · exact legal_delay.2 (by omega)
    · rfl

/-- Settles O52: a tick of a loaded machine is a tick by phase, which keeps the invariant in each of the three. -/
theorem tickKeepsTheInvariant : Obligations.TickKeepsTheInvariant := by
  intro s t hs h
  obtain ⟨-, htick⟩ := whenLoaded_next s h
  exact tickPhase_inv hs htick

/-! ### One tick on the way to the next boundary (R263 to R266, R268) -/

/-- What one tick from `s` to `t` does on the way to the next boundary: it stays inside the instruction, one tick nearer its
end and bound for the same state; or it was the last tick and `t` is where the step leads. -/
def Advances (s t : State) : Prop :=
  (t.phase ≠ .fetch ∧ ticksLeft s = ticksLeft t + 1 ∧ runToBoundary t = runToBoundary s) ∨
    (t.phase = .fetch ∧ ticksLeft s = 1 ∧ runToBoundary s = .next t)

/-- The Fetch tick: the opcode is latched, and its base cycles but one and its penalty are left (R263). -/
theorem fetchTick_advances {s : State} (hs : s.phase = .fetch) :
    Advances s ((fetchByte s).2.setPhase (.execute (fetchByte s).1 (baseCycles (fetchByte s).1 - 1))) := by
  have hbase := baseCycles_bounds (fetchByte s).1
  have hphase : (fetchByte s).2.phase = .fetch := by rw [fetchByte_phase, hs]
  refine .inl ⟨nofun, ?_, ?_⟩
  · rw [ticksLeft_of_boundary hs, ticksLeft_of_execute (State.setPhase_phase ..), opcodePenalty_setPhase]
    omega
  · rw [runToBoundary_of_execute (State.setPhase_phase ..), State.setPhase_setPhase, State.setPhase_of_phase hphase,
      runToBoundary_of_fetch hs]

/-- An Execute tick before the last counts down (R264). -/
theorem countdownTick_advances {s : State} {op : Byte} {n : Nat} (hs : s.phase = .execute op n) (hn : 1 < n) :
    Advances s (s.setPhase (.execute op (n - 1))) := by
  refine .inl ⟨nofun, ?_, ?_⟩
  · rw [ticksLeft_of_execute hs, ticksLeft_of_execute (State.setPhase_phase ..), opcodePenalty_setPhase]
    omega
  · rw [runToBoundary_of_execute (State.setPhase_phase ..), State.setPhase_setPhase, runToBoundary_of_execute hs]

/-- The running tick leaves the penalty to wait out, or ends the instruction where there is none (R264). -/
theorem runningTick_advances {s t : State} {op : Byte} (hs : s.phase = .execute op 1) (h : runningTick op s = .next t) :
    Advances s t := by
  obtain ⟨u, hu, rfl⟩ := runningTick_next h
  have hend : u.setPhase .fetch = u := State.setPhase_of_phase (runOpcode_phase rfl hu)
  have hrun : runToBoundary s = .next u := by rw [runToBoundary_of_execute hs, hu]
  have hleft := ticksLeft_of_execute hs
  by_cases hp : opcodePenalty op s = 0
  · rw [phaseAfter, if_pos hp, hend]
    exact .inr ⟨runOpcode_phase rfl hu, by omega, hrun⟩
  · rw [phaseAfter, if_neg hp]
    refine .inl ⟨nofun, ?_, ?_⟩
    · rw [ticksLeft_of_delay (State.setPhase_phase ..)]
      omega
    · rw [runToBoundary_of_delay (State.setPhase_phase ..), State.setPhase_setPhase, hend, hrun]

/-- A Delay tick counts down to the boundary (R265). -/
theorem delayTick_advances {s : State} {m : Nat} (hs : s.phase = .delay m) (hm : 1 ≤ m) :
    Advances s (s.setPhase (if 1 < m then .delay (m - 1) else .fetch)) := by
  have hleft := ticksLeft_of_delay hs
  split
  · refine .inl ⟨nofun, ?_, ?_⟩
    · rw [ticksLeft_of_delay (State.setPhase_phase ..)]
      omega
    · rw [runToBoundary_of_delay (State.setPhase_phase ..), State.setPhase_setPhase, runToBoundary_of_delay hs]
  · exact .inr ⟨rfl, by omega, runToBoundary_of_delay hs⟩

theorem tickPhase_advances {s t : State} (hs : s.Inv) (h : tickPhase s = .next t) : Advances s t := by
  obtain ⟨-, hlegal⟩ := hs
  cases hphase : s.phase with
  | fetch =>
    rw [tickPhase_of_fetch hphase] at h
    cases h
    exact fetchTick_advances hphase
  | execute op n =>
    rw [hphase, legal_execute] at hlegal
    rw [tickPhase_of_execute hphase] at h
    split at h
    · cases h
      exact countdownTick_advances hphase ‹1 < n›
    · obtain rfl : n = 1 := by omega
      exact runningTick_advances hphase h
  | delay m =>
    rw [hphase, legal_delay] at hlegal
    rw [tickPhase_of_delay hphase] at h
    cases h
    exact delayTick_advances hphase hlegal.1

/-! ### Runs of ticks (R266) -/

theorem tick_of_loaded {s : State} (h : s.loaded = true) : tick s = tickPhase s := whenLoaded_eq s _ h

theorem tick_advances {s t : State} (hs : s.Inv) (h : tick s = .next t) : Advances s t := by
  obtain ⟨-, htick⟩ := whenLoaded_next s h
  exact tickPhase_advances hs htick

theorem ticks_succ_of_tick {s t : State} (k : Nat) (h : tick s = .next t) : ticks (k + 1) s = ticks k t := by
  simp only [ticks, h]

theorem ticks_succ_next {s t : State} {k : Nat} (h : ticks (k + 1) s = .next t) :
    ∃ u, tick s = .next u ∧ ticks k u = .next t := by
  rw [ticks] at h
  split at h
  · exact ⟨_, ‹_›, h⟩
  · cases h
  · cases h

theorem ticksLeft_pos {s : State} (hs : s.Inv) : 1 ≤ ticksLeft s := by
  obtain ⟨t, ht⟩ := tickPhase_goesOn s
  obtain ⟨-, hleft, -⟩ | ⟨-, hleft, -⟩ := tickPhase_advances hs ht <;> omega

/-- A tick leaves the machine loaded: neither a fetch nor an instruction writes that field (log 3). -/
theorem tick_loaded {s t : State} (h : tick s = .next t) : t.loaded = true := by
  obtain ⟨hloaded, htick⟩ := whenLoaded_next s h
  cases hphase : s.phase with
  | fetch =>
    rw [tickPhase_of_fetch hphase] at htick
    cases htick
    simpa using hloaded
  | execute op n =>
    rw [tickPhase_of_execute hphase] at htick
    split at htick
    · cases htick
      exact hloaded
    · obtain ⟨u, hu, rfl⟩ := runningTick_next htick
      rw [State.setPhase_loaded, (changesOnly_of_exec hu).loaded, fetchOperands_state]
      exact hloaded
  | delay m =>
    rw [tickPhase_of_delay hphase] at htick
    cases htick
    exact hloaded

theorem ticks_ticksLeft {s : State} (hloaded : s.loaded = true) (hs : s.Inv) : ticks (ticksLeft s) s = runToBoundary s := by
  induction hn : ticksLeft s generalizing s with
  | zero => exact absurd (ticksLeft_pos hs) (by omega)
  | succ n ih =>
    obtain ⟨t, ht⟩ : GoesOn (tick s) := by
      rw [tick_of_loaded hloaded]
      exact tickPhase_goesOn s
    rw [ticks_succ_of_tick n ht]
    obtain ⟨-, hleft, hsame⟩ | ⟨-, hlast, hend⟩ := tick_advances hs ht
    · rw [← hsame]
      exact ih (tick_loaded ht) (tickKeepsTheInvariant s t hs ht) (by omega)
    · obtain rfl : n = 0 := by omega
      exact hend.symm

/-- Settles O54: by induction on the ticks left, each of which brings the boundary one tick nearer and keeps where the step
leads; before a load the first tick and the step give the same refusal. -/
theorem ticksOfAnInstructionAddUpToTheStep : Obligations.TicksOfAnInstructionAddUpToTheStep := by
  intro s hs
  cases hloaded : s.loaded with
  | true => rw [ticks_ticksLeft hloaded hs, step, whenLoaded_eq s _ hloaded]
  | false =>
    obtain ⟨n, hn⟩ : ∃ n, ticksLeft s = n + 1 := Nat.exists_eq_add_of_le' (ticksLeft_pos hs)
    rw [hn, ticks, tick, step, whenLoaded_refused s _ hloaded, whenLoaded_refused s _ hloaded]

/-- Settles O56: by induction on the ticks; a tick with more than one left stays inside the instruction. -/
theorem noBoundaryBeforeTheLastTick : Obligations.NoBoundaryBeforeTheLastTick := by
  intro s t k hs hk
  induction k, hk using Nat.le_induction generalizing s with
  | base =>
    intro hlt h
    obtain ⟨u, hu, hrest⟩ := ticks_succ_next h
    cases hrest
    obtain ⟨hinside, -⟩ | ⟨-, hlast, -⟩ := tick_advances hs hu
    · exact hinside
    · omega
  | succ k hk ih =>
    intro hlt h
    obtain ⟨u, hu, hrest⟩ := ticks_succ_next h
    obtain ⟨-, hleft, -⟩ | ⟨-, hlast, -⟩ := tick_advances hs hu
    · exact ih u (tickKeepsTheInvariant s u hs hu) (by omega) hrest
    · omega

/-! ### The idle ticks (R263, R264) -/

/-- Before the running tick an Execute tick only counts down. -/
theorem ticks_of_execute {s : State} {op : Byte} {n k : Nat} (hloaded : s.loaded = true) (hs : s.phase = .execute op n)
    (hk : k < n) : ticks k s = .next (s.setPhase (.execute op (n - k))) := by
  induction k generalizing s n with
  | zero => rw [Nat.sub_zero, State.setPhase_of_phase hs, ticks]
  | succ k ih =>
    have htick : tick s = .next (s.setPhase (.execute op (n - 1))) := by
      rw [tick_of_loaded hloaded, tickPhase_of_execute hs, if_pos (by omega)]
    rw [ticks_succ_of_tick k htick, ih (tick_loaded htick) (State.setPhase_phase ..) (by omega),
      State.setPhase_setPhase, Nat.sub_sub, Nat.add_comm 1 k]

/-- Settles O55: the Fetch tick latches the opcode, and the ticks after it count down. -/
theorem idleTicksOnlyCountDown : Obligations.IdleTicksOnlyCountDown := by
  intro s k hloaded hs hk hlt
  obtain ⟨j, rfl⟩ : ∃ j, k = j + 1 := Nat.exists_eq_add_of_le' hk
  have htick := (tick_of_loaded hloaded).trans (tickPhase_of_fetch hs)
  rw [ticks_succ_of_tick j htick, ticks_of_execute (tick_loaded htick) rfl (by omega), State.setPhase_setPhase, Nat.sub_sub,
    Nat.add_comm 1 j]
  rfl

/-! ### Reset (R250, R251, R267) -/

theorem create_inv (memInit : Nat → Byte) (q : Flags) (pc : Addr) : (create memInit q pc).Inv :=
  ⟨initialMemory_wf memInit, rfl⟩

/-- Settles O53: the state after reset is a created machine. -/
theorem resetStateMeetsTheInvariant : Obligations.ResetStateMeetsTheInvariant := by
  rw [Obligations.ResetStateMeetsTheInvariant, ← create_zero]
  exact create_inv _ _ _

/-- Settles O59: the vector's two bytes, low byte first, are the number that PC is assigned. -/
theorem resetAssignsTheRegistersAndKeepsMemory : Obligations.ResetAssignsTheRegistersAndKeepsMemory := by
  intro p s
  rw [← word_eq_ofNat]
  rfl

/-! ### Load (R252, R254, R255) -/

/-- Bytes placed outside the PPU window at addresses of different backing bytes are read back. -/
theorem placeBytes_read_placed {a : Addr} {m : Memory} (bs : List Byte) (hm : m.wf = true)
    (hstorage : ∀ k < bs.length, inPpu (a + BitVec.ofNat 16 k) = false)
    (hdistinct : ∀ j k, j < k → k < bs.length → cellKey (a + BitVec.ofNat 16 j) ≠ cellKey (a + BitVec.ofNat 16 k))
    (i : Nat) (hi : i < bs.length) : (placeBytes a bs m).read (cellKey (a + BitVec.ofNat 16 i)) = bs[i] := by
  induction bs generalizing a m i with
  | nil => exact absurd hi (Nat.not_lt_zero i)
  | cons b bs ih =>
    have hfirst : inPpu a = false := by simpa using hstorage 0 (Nat.succ_pos _)
    cases i with
    | zero =>
      rw [BitVec.add_zero, placeBytes, placeBytes_read_other, Memory.read_write_same b hm]
      · rfl
      · intro k hk
        rw [succ_add_ofNat]
        simpa using hdistinct 0 (k + 1) (Nat.succ_pos k) (Nat.succ_lt_succ hk)
    | succ i =>
      rw [← succ_add_ofNat]
      refine ih (Memory.write_wf b hm (isCell_cellKey hfirst)) ?_ ?_ i (Nat.lt_of_succ_lt_succ hi)
      · intro k hk
        rw [succ_add_ofNat]
        exact hstorage (k + 1) (Nat.succ_lt_succ hk)
      · intro j k hjk hk
        rw [succ_add_ofNat, succ_add_ofNat]
        exact hdistinct (j + 1) (k + 1) (Nat.succ_lt_succ hjk) (Nat.succ_lt_succ hk)

theorem imageAddr_toNat {n k : Nat} (hk : k < n) (hn : n ≤ 49120) :
    (BitVec.ofNat 16 (0x10000 - n) + BitVec.ofNat 16 k).toNat = 0x10000 - n + k := by
  rw [← BitVec.ofNat_add, BitVec.toNat_ofNat]
  omega

/-- An image of at most 49120 bytes starts at 0x4020 or above, past the PPU window. -/
theorem inPpu_imageAddr {n k : Nat} (hk : k < n) (hn : n ≤ 49120) :
    inPpu (BitVec.ofNat 16 (0x10000 - n) + BitVec.ofNat 16 k) = false :=
  inPpu_eq_false_iff.2 (by rw [imageAddr_toNat hk hn]; omega)

theorem cellKey_imageAddr {n k : Nat} (hk : k < n) (hn : n ≤ 49120) :
    cellKey (BitVec.ofNat 16 (0x10000 - n) + BitVec.ofNat 16 k) = 0x10000 - n + k := by
  rw [cellKey_above_ram (by rw [imageAddr_toNat hk hn]; omega), imageAddr_toNat hk hn]

theorem cellKey_le (b : Addr) : cellKey b ≤ b.toNat := by
  unfold cellKey
  split
  · exact Nat.mod_le ..
  · exact Nat.le_refl _

/-- An image of a size that R255 allows is placed at the top of memory, every byte below it kept, and reset is applied. -/
theorem load_places (p : Flags) {image : List Byte} {s : State} (hs : s.Inv)
    (hsize : 1 ≤ image.length ∧ image.length ≤ 49120) :
    ∃ t, load p image s = .next t ∧ t.Inv ∧
      (∀ (i : Nat) (h : i < image.length), t.peek (BitVec.ofNat 16 (0x10000 - image.length + i)) = image[i]) ∧
      (∀ b : Addr, inPpu b = false → b.toNat < 0x10000 - image.length → t.peek b = s.peek b) ∧
      t = hardReset p { s with mem := t.mem, loaded := true } := by
  obtain ⟨hmem, -⟩ := hs
  have hmax := hsize.2
  have hstorage : ∀ k < image.length, inPpu (BitVec.ofNat 16 (0x10000 - image.length) + BitVec.ofNat 16 k) = false :=
    fun k hk => inPpu_imageAddr hk hmax
  refine ⟨_, if_pos hsize, ⟨placeBytes_wf image hmem hstorage, rfl⟩, fun i hi => ?_, fun b _ hb => ?_, rfl⟩
  · rw [BitVec.ofNat_add]
    refine placeBytes_read_placed image hmem hstorage (fun j k hjk hk => ?_) i hi
    rw [cellKey_imageAddr (hjk.trans hk) hmax, cellKey_imageAddr hk hmax]
    omega
  · refine placeBytes_read_other s.mem image fun k hk => ?_
    have hle := cellKey_le b
    rw [cellKey_imageAddr hk hmax]
    omega

/-- Settles O60: `load_places`, from any state and from a created machine, whose bytes are those of `MEM_INIT`. -/
theorem loadPlacesTheImageAndResets : Obligations.LoadPlacesTheImageAndResets := by
  intro p image s hs
  refine ⟨fun hsize => ⟨load_places p hs hsize, fun memInit q pc => ?_⟩, fun hsize => if_neg hsize, fun _ _ => rfl,
    fun hloaded => ⟨whenLoaded_refused s _ hloaded, whenLoaded_refused s _ hloaded⟩⟩
  obtain ⟨t, hload, hinv, hplaced, hkept, hreset⟩ := load_places p (create_inv memInit q pc) hsize
  refine ⟨t, hload, hinv, by rw [hreset]; rfl, hplaced, fun b hb hbelow => ?_⟩
  rw [hkept b hb hbelow]
  exact initialMemory_read memInit (isCell_cellKey hb)

end Sys2Proof.Machine
end
